-- ==== Sys2Proof/Word.lean ====
section
/-! DEFINITION. The bit-vector types of the machine (00_scope.md R5, R7). -/

namespace Sys2Proof

/-- A 32-bit value: an instruction word (R50) or a binary32 word (R91). -/
abbrev Word := BitVec 32

/-- A 64-bit value: a general register (R10), a floating-point register (R11), an address sum (R75). -/
abbrev DWord := BitVec 64

/-- One byte of memory (R30). -/
abbrev Byte := BitVec 8

/-- A 32-bit address (R5 `AW`, R30, R31). -/
abbrev Addr := BitVec 32

/-- The number of a general or floating-point register, a 5-bit field (R10, R11, R51, R52). -/
abbrev RegNum := BitVec 5

end Sys2Proof
end

