-- ==== Sys2Proof/Syntax.lean ====
section
/-! DEFINITION. The instructions of spec/opcode_table.json as syntax, and the outcome of decoding (R57, R60). -/

namespace Sys2Proof

/-- The four instructions, one constructor per row of the opcode table, with the fields of R51 and R52. -/
inductive Instr where
  /-- `stfs FS, d(RA0)` (R71). -/
  | stfs (fs ra : RegNum) (d : BitVec 16)
  /-- `stfsu FS, d(RA)` (R72). -/
  | stfsu (fs ra : RegNum) (d : BitVec 16)
  /-- `stfsx FS, RA, RB` (R73). -/
  | stfsx (fs ra rb : RegNum)
  /-- `stfsux FS, RA, RB` (R74). -/
  | stfsux (fs ra rb : RegNum)
deriving DecidableEq, Repr

/-- What the total decoder answers for a word (R60). -/
inductive Decoded where
  /-- The word is one of the four instructions. -/
  | instr (i : Instr)
  /-- The word is an update form with `RA = 0` (R59). -/
  | invalidForm
  /-- The word matches no row of R57. -/
  | notInSpec
deriving DecidableEq, Repr

end Sys2Proof
end

