-- ==== Sys2Proof/WellFormed.lean ====
section
/-! DEFINITION. Well-formed instructions: the update forms exclude `RA = 0` (R59). -/

namespace Sys2Proof

/-- R59: an update form with `RA = 0` is an invalid form, and no other invalid form is stated. -/
def Instr.wf : Instr → Bool
  | .stfs _ _ _ => true
  | .stfsu _ ra _ => ra != 0
  | .stfsx _ _ _ => true
  | .stfsux _ ra _ => ra != 0

end Sys2Proof
end

