-- ==== Sys2Proof/Decode.lean ====
section
/-! DEFINITION. Fields, decoder, encoder and assembler text of the four instructions (30_encoding.md). -/

namespace Sys2Proof

/-- `OPCD = W{0..5} = W[31:26]` (R51, R52, R53). -/
def fieldOpcd (w : Word) : BitVec 6 := w.extractLsb' 26 6

/-- `FS = W{6..10} = W[25:21]` (R51, R52, R53). -/
def fieldFs (w : Word) : RegNum := w.extractLsb' 21 5

/-- `RA = W{11..15} = W[20:16]` (R51, R52, R53). -/
def fieldRa (w : Word) : RegNum := w.extractLsb' 16 5

/-- `RB = W{16..20} = W[15:11]` (R52, R53). -/
def fieldRb (w : Word) : RegNum := w.extractLsb' 11 5

/-- `XO = W{21..30} = W[10:1]` (R52, R53). -/
def fieldXo (w : Word) : BitVec 10 := w.extractLsb' 1 10

/-- `Rc = W{31} = W[0]` (R52, R53). -/
def fieldRc (w : Word) : BitVec 1 := w.extractLsb' 0 1

/-- `d = W{16..31} = W[15:0]` (R51, R53). -/
def fieldD (w : Word) : BitVec 16 := w.extractLsb' 0 16

/-- The total decoder of R60: primary opcodes 52 and 53 are the D forms, primary opcode 31 with extended opcode
663 or 695 and `Rc = 0` the X forms (R57, R58); an update form with `RA = 0` is an invalid form (R59). -/
def decodeWord (w : Word) : Decoded :=
  if fieldOpcd w = 52 then
    .instr (.stfs (fieldFs w) (fieldRa w) (fieldD w))
  else if fieldOpcd w = 53 then
    if fieldRa w = 0 then .invalidForm
    else .instr (.stfsu (fieldFs w) (fieldRa w) (fieldD w))
  else if fieldOpcd w = 31 ∧ fieldXo w = 663 ∧ fieldRc w = 0 then
    .instr (.stfsx (fieldFs w) (fieldRa w) (fieldRb w))
  else if fieldOpcd w = 31 ∧ fieldXo w = 695 ∧ fieldRc w = 0 then
    if fieldRa w = 0 then .invalidForm
    else .instr (.stfsux (fieldFs w) (fieldRa w) (fieldRb w))
  else .notInSpec

/-- The 32-bit word of four bytes, the first (at the lowest address) most significant (R33). -/
def wordOfBytes (b0 b1 b2 b3 : Byte) : Word := b0 ++ b1 ++ b2 ++ b3

/-- Byte `i` of a word, byte 0 the most significant (R32). -/
def byteOfWord (w : Word) : Nat → Byte
  | 0 => w.extractLsb' 24 8
  | 1 => w.extractLsb' 16 8
  | 2 => w.extractLsb' 8 8
  | _ => w.extractLsb' 0 8

/-- The decoder on the four bytes of an instruction as they lie in memory (R33, R50). -/
def decodeBytes (b0 b1 b2 b3 : Byte) : Decoded := decodeWord (wordOfBytes b0 b1 b2 b3)

/-- The instruction of a decoding, if it is one. -/
def Decoded.instr? : Decoded → Option Instr
  | .instr i => some i
  | .invalidForm => none
  | .notInSpec => none

/-- The word of an instruction (R53: `OPCD`, `FS`, `RA`, then `d`, or `RB`, `XO` and a zero bit). -/
def encode : Instr → Word
  | .stfs fs ra d => 52#6 ++ fs ++ ra ++ d
  | .stfsu fs ra d => 53#6 ++ fs ++ ra ++ d
  | .stfsx fs ra rb => 31#6 ++ fs ++ ra ++ rb ++ 663#10 ++ 0#1
  | .stfsux fs ra rb => 31#6 ++ fs ++ ra ++ rb ++ 695#10 ++ 0#1

/-- The decoder on the bits of an opcode-table row, bit 0 the least significant bit of the instruction word;
the word is laid out as its four big-endian bytes (R33) and the bits above `nbits` are 0. -/
def decodeTableWord (nbits w : Nat) : Option Instr :=
  let word : Word := BitVec.ofNat 32 (w % 2 ^ nbits)
  (decodeBytes (byteOfWord word 0) (byteOfWord word 1) (byteOfWord word 2) (byteOfWord word 3)).instr?

/-- The mnemonic as the opcode table and R61 spell it. -/
def Instr.mnemonic : Instr → String
  | .stfs _ _ _ => "stfs"
  | .stfsu _ _ _ => "stfsu"
  | .stfsx _ _ _ => "stfsx"
  | .stfsux _ _ _ => "stfsux"

/-- R61: a floating-point register operand, `f0` to `f31`. -/
def asmFpr (r : RegNum) : String := "f" ++ toString r.toNat

/-- R61: a general register operand, `r0` to `r31`. -/
def asmGpr (r : RegNum) : String := "r" ++ toString r.toNat

/-- R61: the `RA0` slot of `stfs` and `stfsx`, where `0` means the literal zero. -/
def asmRa0 (r : RegNum) : String := if r = 0 then "0" else asmGpr r

/-- R61: the assembler text of an instruction, `d` as a signed decimal number (log entry 27). -/
def Instr.asm (i : Instr) : String :=
  i.mnemonic ++ " " ++
    match i with
    | .stfs fs ra d => asmFpr fs ++ ", " ++ toString d.toInt ++ "(" ++ asmRa0 ra ++ ")"
    | .stfsu fs ra d => asmFpr fs ++ ", " ++ toString d.toInt ++ "(" ++ asmGpr ra ++ ")"
    | .stfsx fs ra rb => asmFpr fs ++ ", " ++ asmRa0 ra ++ ", " ++ asmGpr rb
    | .stfsux fs ra rb => asmFpr fs ++ ", " ++ asmGpr ra ++ ", " ++ asmGpr rb

end Sys2Proof
end

