-- ==== Sys2Proof/Config.lean ====
section
/-! DEFINITION. The parameters of R5 as plain data, and the free values (draws) as opaque constants. -/

namespace Sys2Proof

/-- `cfg.sfd` (R90): which function narrows a double to the single that is stored. -/
inductive SfdInstance where
  /-- `SFD_rn` (R93), the default. -/
  | rn
  /-- `SFD_rne` (R100). -/
  | rne
  /-- `SFD_arch` (R101). -/
  | arch
  /-- Any other total function of `(x, rn, ni)` that obeys R92 (R90; log entry 8). -/
  | other
deriving DecidableEq, Repr

/-- `cfg.fpscrPolicy` (R102): whether the flags of the conversion reach FPSCR. -/
inductive FpscrPolicy where
  | unchanged
  | ieeeFlags
  /-- The default: each flag is set or left, by a draw. -/
  | maySet
deriving DecidableEq, Repr

/-- `cfg.updateWriteback` (R76): what an update form writes to `x[RA]`. -/
inductive UpdateWriteback where
  /-- The zero-extended 32-bit address, the default. -/
  | ea32Zext
  /-- The whole 64-bit sum. -/
  | sum64
deriving DecidableEq, Repr

/-- `cfg.ciMisalign` (R34): a misaligned store to cache-inhibited storage. -/
inductive CiMisalign where
  | perform
  | fault
  /-- The default: a draw between the two. -/
  | may
deriving DecidableEq, Repr

/-- A region of the address space: the bytes `base` to `base + size - 1`. -/
structure Region where
  base : Nat
  size : Nat
deriving DecidableEq, Repr

/-- The configuration of R5 (log entries 1 to 3). It is fixed for a machine: no step changes it. -/
structure Config where
  sfd : SfdInstance
  fpscrPolicy : FpscrPolicy
  updateWriteback : UpdateWriteback
  ciMisalign : CiMisalign
  /-- The bytes for which `cfg.memAdmit` is false (R37), as a list of regions. -/
  absent : List Region
  /-- The bytes for which `cfg.cacheInhibited` is true (R34), as a list of regions. -/
  inhibited : List Region
  /-- `cfg.reservationGranule` is `4 * 2 ^ granuleExp`: a power of two and at least 4 (R42). -/
  granuleExp : Nat
deriving DecidableEq, Repr

/-- The four FPSCR flags the conversion can raise (R90, R98). -/
inductive NarrowFlag where
  | xx
  | ox
  | ux
  | vxsnan
deriving DecidableEq, Repr

/-- The FPSCR bits that the source does not name and the architecture derives from the flags (R102). -/
structure SummaryBits where
  fx : Bool
  fex : Bool
  vx : Bool
  fr : Bool
  fi : Bool
  fprf : BitVec 5
deriving DecidableEq, Repr, Inhabited

/-- FREE VALUE (U2, R34): whether draw number `k` of a misaligned cache-inhibited store faults (log entry 5). -/
opaque Config.drawCiFault : Nat → Bool

/-- FREE VALUE (U4, R102): whether draw number `k` sets the raised flag under `may_set` (log entry 6). -/
opaque Config.drawFlagSet : Nat → NarrowFlag → Bool

/-- FREE VALUE (U6, R98): whether draw number `k` raises `UX` or `XX` when a result is flushed (log entry 6). -/
opaque Config.drawFlushFlag : Nat → NarrowFlag → Bool

/-- FREE VALUE (U9, R102): the summary and result bits after a raised flag, at draw number `k` (log entry 6). -/
opaque Config.drawSummary : Nat → SummaryBits

/-- FREE VALUE (U8, R101): the word of `SFD_arch` where it is undefined, at draw number `k` (log entry 7). -/
opaque Config.drawArchWord : Nat → Word

/-- FREE VALUE (R90): any other conversion, outside the common core of R92 (log entry 8). -/
opaque Config.otherSfd : DWord → BitVec 2 → Bool → Word

end Sys2Proof
end

