-- ==== Sys2Proof/Machine/State.lean ====
section
/-! DEFINITION. The machine's state as plain data (10_state.md), the reasons a step can stop, and the launch state. -/

namespace Sys2Proof.Machine

/-- FPSCR as a record of the fields of R14, in the order of the layout R14 adopts (D26; log entry 19). -/
structure Fpscr where
  fx : Bool
  fex : Bool
  vx : Bool
  /-- Overflow, one of the four flags this family can raise. -/
  ox : Bool
  /-- Underflow, one of the four. -/
  ux : Bool
  zx : Bool
  /-- Inexact, one of the four. -/
  xx : Bool
  /-- Signalling NaN, one of the four. -/
  vxsnan : Bool
  vxisi : Bool
  vxidi : Bool
  vxzdz : Bool
  vximz : Bool
  vxvc : Bool
  fr : Bool
  fi : Bool
  fprf : BitVec 5
  reserved20 : Bool
  vxsoft : Bool
  vxsqrt : Bool
  vxcvi : Bool
  ve : Bool
  oe : Bool
  ue : Bool
  ze : Bool
  xe : Bool
  /-- Non-IEEE mode: subnormal results are flushed (R97). -/
  ni : Bool
  /-- The rounding mode (R94). -/
  rn : BitVec 2
deriving DecidableEq, Repr

/-- Memory: the bytes that differ from 0, by address (R30; log entry 16). -/
abbrev Memory := List Host.Cell

/-- Where the program text lies: `len` words from `base` (R135; log entry 11). -/
structure Text where
  base : Addr
  len : Nat
deriving DecidableEq, Repr

/-- The state of the machine: the executing agent's registers, the shared reservation state and memory, the
program text's place, the configuration and the index of the next draw. -/
@[ext]
structure State where
  /-- `x[0]`..`x[31]` (R10). -/
  gpr : Vector DWord 32
  /-- `f[0]`..`f[31]`, raw binary64 patterns (R11). -/
  fpr : Vector DWord 32
  /-- The address of the instruction being executed (R12). -/
  pc : Addr
  /-- `MSR[FP]` (R13). -/
  msrFp : Bool
  /-- FPSCR (R14). -/
  fpscr : Fpscr
  /-- For each agent, the number of the granule it holds a reservation on (R17, R121). -/
  reservations : List (Option Nat)
  /-- The 2^32 bytes of memory (R30). -/
  mem : Memory
  /-- The program text (R43, R135). -/
  text : Text
  /-- The configuration (R5; log entry 1). -/
  cfg : Config
  /-- The index of the next draw: the model's own field (log entry 4). -/
  draws : Nat
deriving DecidableEq, Repr

/-- The reasons a step ends in a fault. -/
inductive Fault where
  /-- R111: raised by all four instructions when `MSR.FP = 0`, with the pc of the instruction. Safe: terminal and
  precise, no handler entry is described (R113). -/
  | floatingPointUnavailable (pc : Addr)
  /-- R112: raised by all four instructions for a misaligned store to cache-inhibited storage, with the pc and
  the address of the store. Safe: terminal and precise (R113). -/
  | alignment (pc addr : Addr)
  /-- R36, R37: the agent has no step (stuck) for a store by any of the four instructions to an address that runs
  past the top of the address space or that `cfg.memAdmit` does not admit. Safe. -/
  | stuckAccess (addr : Addr)
deriving DecidableEq, Repr

/-- The reasons the model gives a word, an access or a step no meaning. -/
inductive Refusal where
  /-- Raised only by an arm of `exec` that has no meaning yet. Safe. -/
  | notModelled (mnemonic : String)
  /-- R59: raised by the decoder's `InvalidForm` in `step`, and by `stfsu` and `stfsux` with `RA = 0`. Safe. -/
  | invalidForm
  /-- R60: raised in `step` for a word that is none of the four instructions. Safe. -/
  | notInSpec
  /-- R77: raised by all four instructions when `pc + 4` would reach 2^32. Safe. -/
  | pcOverflow
  /-- R43: raised by all four instructions for a store with a byte inside the program text. Safe. -/
  | storeToProgramText
  /-- R137: raised in `step` at the final state, `pc = base + 4n`, which has no next step. Safe. -/
  | runEnded
  /-- R137: raised in `step` for a `pc` outside the program text or not a multiple of 4. Safe. -/
  | pcOutsideText
deriving DecidableEq, Repr

/-- FPSCR at launch: every field 0 (DESIGN CHOICE, log entry 13). -/
def Fpscr.reset : Fpscr where
  fx := false
  fex := false
  vx := false
  ox := false
  ux := false
  zx := false
  xx := false
  vxsnan := false
  vxisi := false
  vxidi := false
  vxzdz := false
  vximz := false
  vxvc := false
  fr := false
  fi := false
  fprf := 0
  reserved20 := false
  vxsoft := false
  vxsqrt := false
  vxcvi := false
  ve := false
  oe := false
  ue := false
  ze := false
  xe := false
  ni := false
  rn := 0

/-- The configuration at launch: the spec's defaults (R5); for the OPEN parameters no absent and no
cache-inhibited region and a granule of 128 bytes (log entries 1 to 3). -/
def configReset : Config where
  sfd := .rn
  fpscrPolicy := .maySet
  updateWriteback := .ea32Zext
  ciMisalign := .may
  absent := []
  inhibited := []
  granuleExp := 5

/-- The launch state. The spec states no reset value (R20, R130); the values are those its test vectors assume,
and zero where they assume nothing (DESIGN CHOICE, log entries 13 to 16). -/
def State.reset : State where
  gpr := Vector.replicate 32 0
  fpr := Vector.replicate 32 0
  pc := 0x00010000
  msrFp := true
  fpscr := Fpscr.reset
  reservations := [none]
  mem := []
  text := ⟨0x00010000, 0⟩
  cfg := configReset
  draws := 0

end Sys2Proof.Machine
end

