-- ==== Sys2Proof/Machine/Ops.lean ====
section
/-! DEFINITION. The named operations over registers, memory, reservations and the program text, and the raising of
an exception (10_state.md, 20_memory.md, 60_exceptions.md). -/

namespace Sys2Proof.Machine

/-! Registers (R8, R10, R11, R12). -/

/-- `x[i]`: read a general register (R10); none is hard-wired. -/
def State.readGpr (s : State) (i : RegNum) : DWord := s.gpr[i.toNat]

/-- `x[i] <- v`: write a general register (R10). -/
def State.writeGpr (s : State) (i : RegNum) (v : DWord) : State :=
  { s with gpr := s.gpr.set i.toNat v }

/-- `f[i]`: read a floating-point register (R11); no instruction writes one. -/
def State.readFpr (s : State) (i : RegNum) : DWord := s.fpr[i.toNat]

/-- `pc <- pc + 4` (R12, R77). -/
def State.advancePc (s : State) : State := { s with pc := s.pc + 4 }

/-- The index of the next draw moves on by one (log entry 4). -/
def State.advanceDraws (s : State) : State := { s with draws := s.draws + 1 }

/-! Memory (R30, R32, R33). Canonical form: addresses strictly rising, below 2^32, no listed byte equal to 0. -/

/-- Every listed address is above `lo`, addresses strictly rise, are below 2^32, and no listed byte is 0. -/
def Memory.wfFrom : Nat → Memory → Bool
  | _, [] => true
  | lo, (k, v) :: m => decide (lo ≤ k) && decide (k < 2 ^ 32) && (v != 0) && Memory.wfFrom (k + 1) m

/-- The canonical form of memory. -/
def Memory.wf (m : Memory) : Bool := Memory.wfFrom 0 m

/-- The byte at an address; an unlisted byte reads as 0 (R30; DESIGN CHOICE, log entry 16). -/
def Memory.read : Memory → Nat → Byte
  | [], _ => 0
  | (k, v) :: m, a => if k = a then v else Memory.read m a

/-- Write one byte, keeping the canonical form: writing 0 removes the entry. -/
def Memory.write : Memory → Nat → Byte → Memory
  | [], a, b => if b = 0 then [] else [(a, b)]
  | (k, v) :: m, a, b =>
    if a < k then (if b = 0 then (k, v) :: m else (a, b) :: (k, v) :: m)
    else if a = k then (if b = 0 then m else (a, b) :: m)
    else (k, v) :: Memory.write m a b

/-- `MemWrite(a, 4, w)`: four bytes, the most significant at `a` (R32). -/
def Memory.writeWord (m : Memory) (a : Nat) (w : Word) : Memory :=
  (((m.write a (byteOfWord w 0)).write (a + 1) (byteOfWord w 1)).write (a + 2) (byteOfWord w 2)).write
    (a + 3) (byteOfWord w 3)

/-- The big-endian word of the four bytes at `a` (R33). -/
def Memory.readWord (m : Memory) (a : Nat) : Word :=
  wordOfBytes (m.read a) (m.read (a + 1)) (m.read (a + 2)) (m.read (a + 3))

/-- `MemWrite(a, 4, w)` on the state (R32). -/
def State.writeMem (s : State) (a : Addr) (w : Word) : State :=
  { s with mem := s.mem.writeWord a.toNat w }

/-! Which bytes an access touches, and what holds of them (R34, R36, R37, R43). -/

/-- The four bytes of a store at `a` (R32, R35). -/
def accessBytes (a : Addr) : List Nat := [a.toNat, a.toNat + 1, a.toNat + 2, a.toNat + 3]

/-- Whether a byte lies in a region. -/
def Region.holds (r : Region) (a : Nat) : Bool := decide (r.base ≤ a) && decide (a < r.base + r.size)

/-- `cfg.memAdmit` (R37). -/
def memAdmit (c : Config) (a : Nat) : Bool := !(c.absent.any fun r => Region.holds r a)

/-- `cfg.cacheInhibited` (R34). -/
def cacheInhibited (c : Config) (a : Nat) : Bool := c.inhibited.any fun r => Region.holds r a

/-- The address just after the last word of the program text, `base + 4n` (R137). -/
def Text.limit (t : Text) : Nat := t.base.toNat + 4 * t.len

/-- Whether a byte lies inside the program text (R43). -/
def Text.holds (t : Text) (a : Nat) : Bool := decide (t.base.toNat ≤ a) && decide (a < t.limit)

/-- R36, R37: `a ≤ 2^32 - 4` and `cfg.memAdmit` of all four bytes. -/
def State.admits (s : State) (a : Addr) : Bool :=
  decide (a.toNat ≤ 2 ^ 32 - 4) && (accessBytes a).all (memAdmit s.cfg)

/-- R43: some byte of the store lies inside the program text. -/
def State.hitsText (s : State) (a : Addr) : Bool := (accessBytes a).any s.text.holds

/-- R34: the address is not a multiple of 4. -/
def misaligned (a : Addr) : Bool := a.toNat % 4 != 0

/-- R34: some byte of the store is cache-inhibited. -/
def State.hitsInhibited (s : State) (a : Addr) : Bool := (accessBytes a).any (cacheInhibited s.cfg)

/-- R34, R112: whether the store raises Alignment, per `cfg.ciMisalign`; under `may` it is a draw (U2). -/
def State.alignmentFaults (s : State) (a : Addr) : Bool :=
  misaligned a && s.hitsInhibited a &&
    match s.cfg.ciMisalign with
    | .perform => false
    | .fault => true
    | .may => Config.drawCiFault s.draws

/-! Reservations (R17, R42). -/

/-- `cfg.reservationGranule`: a power of two, at least 4 (R42). -/
def granuleSize (c : Config) : Nat := 4 * 2 ^ c.granuleExp

/-- The number of the granule that holds an address (R42). -/
def granuleOf (c : Config) (a : Nat) : Nat := a / granuleSize c

/-- What an agent still holds after a store at `a`: a reservation on a granule the store touches is lost (R42). -/
def keepReservation (c : Config) (a : Addr) : Option Nat → Option Nat
  | none => none
  | some g => if (accessBytes a).any (fun b => granuleOf c b == g) then none else some g

/-- `ReservationInvalidate(a, 4)`: every agent's reservation on every touched granule is cleared (R42, D15). -/
def State.invalidateReservations (s : State) (a : Addr) : State :=
  { s with reservations := s.reservations.map (keepReservation s.cfg a) }

/-! The program text (R43, R135, R137). -/

/-- R137: the run has ended, `pc = base + 4n`. -/
def State.ended (s : State) : Bool := s.pc.toNat == s.text.limit

/-- `Fetch(pc)`: for `pc = base + 4i` inside the text, the big-endian word of the four bytes at `pc` (R43, R135). -/
def State.fetch (s : State) : Option Word :=
  if s.text.holds s.pc.toNat && !misaligned s.pc && !misaligned s.text.base then
    some (s.mem.readWord s.pc.toNat)
  else none

/-! Exceptions and refusals (R8, R113): they end the step and change no state (R115). There is no trap entry and no
return in the spec (R113, R116), so raising ends the run. -/

/-- `raise <Exception>(info)`: end the step with a fault outcome and no other state change (R8, R113). -/
def raiseFault (f : Fault) : Host.Outcome State Fault Refusal := .fault f

/-- `refuse <Reason>` (R8, R113). -/
def refuse (r : Refusal) : Host.Outcome State Fault Refusal := .refused r

/-- No step (stuck), R36, R37, R113 (log entry 10). -/
def stuckAt (a : Addr) : Host.Outcome State Fault Refusal := .fault (.stuckAccess a)

end Sys2Proof.Machine
end

