-- ==== Sys2Proof/Machine/Convert.lean ====
section
/-! DEFINITION. The conversion `SingleFromDouble` (41_single_conversion.md R90 to R101), in the integer formulation
of R99. -/

namespace Sys2Proof.Machine

/-! Binary64 fields and classes (R91). -/

/-- `s = x[63]`. -/
def dSign (x : DWord) : BitVec 1 := x.extractLsb' 63 1

/-- The biased exponent `e = x[62:52]`. -/
def dExp (x : DWord) : Nat := (x.extractLsb' 52 11).toNat

/-- The fraction `f = x[51:0]`. -/
def dFrac (x : DWord) : Nat := (x.extractLsb' 0 52).toNat

def dIsZero (x : DWord) : Bool := dExp x == 0 && dFrac x == 0

def dIsInf (x : DWord) : Bool := dExp x == 2047 && dFrac x == 0

def dIsNan (x : DWord) : Bool := dExp x == 2047 && dFrac x != 0

/-- A NaN with `f[51] = 1`. -/
def dIsQuietNan (x : DWord) : Bool := dIsNan x && x.getLsbD 51

/-- A NaN with `f[51] = 0`. -/
def dIsSignallingNan (x : DWord) : Bool := dIsNan x && !x.getLsbD 51

/-! Binary32 words (R91). -/

/-- The word with sign `s` and magnitude bits `m = w[30:0]`. -/
def single (s : BitVec 1) (m : Nat) : Word := s ++ BitVec.ofNat 31 m

/-- The magnitude bits of infinity, `0xFF || 0^23`. -/
def infMag : Nat := 0x7F800000

/-- The magnitude bits of `MAXF`. -/
def maxMag : Nat := 0x7F7FFFFF

/-- The magnitude bits of `MINN`. -/
def minNormalMag : Nat := 0x00800000

/-! Rounding (R94, R99). -/

/-- `RoundUp` of the `k`-bit remainder `rem` (R94, and `RU` of R99): 1 to round the magnitude up, else 0. -/
def roundUp (rn : BitVec 2) (s : BitVec 1) (lo rem k : Nat) : Nat :=
  if rem = 0 then 0
  else if rn = 0 then (if 2 ^ k < 2 * rem ∨ (2 * rem = 2 ^ k ∧ lo % 2 = 1) then 1 else 0)
  else if rn = 1 then 0
  else if rn = 2 then (if s = 0 then 1 else 0)
  else (if s = 1 then 1 else 0)

/-- `M` of R99: the significand, with the hidden bit for a normal double. -/
def significand (x : DWord) : Nat := if dExp x = 0 then dFrac x else 2 ^ 52 + dFrac x

/-- How many low bits of `M` lie below the last place of the single (R99: 29, `k`, or 925). -/
def droppedBits (x : DWord) : Nat :=
  if 897 ≤ dExp x then 29 else if 1 ≤ dExp x then 29 + (897 - dExp x) else 925

/-- `lo` of R99. -/
def keptBits (x : DWord) : Nat := significand x / 2 ^ droppedBits x

/-- `rem` of R99. -/
def remainderBits (x : DWord) : Nat := significand x % 2 ^ droppedBits x

/-- `m` of R99: the rounded magnitude as a binary32 magnitude, with no bound at the top. -/
def roundedMag (x : DWord) (rn : BitVec 2) : Nat :=
  (dExp x - 897) * 2 ^ 23 + keptBits x +
    roundUp rn (dSign x) (keptBits x) (remainderBits x) (droppedBits x)

/-- R95: the quieted NaN, sign and top payload bits kept. -/
def quietNan (x : DWord) : Word := dSign x ++ 0xFF#8 ++ 1#1 ++ x.extractLsb' 29 22

/-- R96: the word stored on overflow. -/
def overflowWord (s : BitVec 1) (rn : BitVec 2) : Word :=
  if rn = 0 ∨ (rn = 2 ∧ s = 0) ∨ (rn = 3 ∧ s = 1) then single s infMag else single s maxMag

/-- R97: with `NI = 1` a rounded magnitude strictly between 0 and `MINN` is flushed. -/
def flushes (ni : Bool) (m : Nat) : Bool := ni && decide (0 < m) && decide (m < minNormalMag)

/-- `SFD_rn` (R93, R99). -/
def sfdRn (x : DWord) (rn : BitVec 2) (ni : Bool) : Word :=
  if dIsNan x then quietNan x
  else if dIsInf x then single (dSign x) infMag
  else if dIsZero x then single (dSign x) 0
  else if infMag ≤ roundedMag x rn then overflowWord (dSign x) rn
  else if flushes ni (roundedMag x rn) then single (dSign x) 0
  else single (dSign x) (roundedMag x rn)

/-- `SFD_rne` (R100): to nearest, ties to even, gradual underflow, whatever FPSCR holds. -/
def sfdRne (x : DWord) : Word := sfdRn x 0 false

/-- R101: where `SFD_arch` leaves the word undefined. -/
def archUndefined (x : DWord) : Bool := decide (dExp x ≤ 873) && !dIsZero x

/-- `SFD_arch` (R101): bit selection, or denormalisation by truncation; the undefined case is a draw (U8). -/
def sfdArch (x : DWord) (draw : Nat) : Word :=
  if 896 < dExp x ∨ dIsZero x then x.extractLsb' 62 2 ++ x.extractLsb' 29 30
  else if 874 ≤ dExp x then
    dSign x ++ 0#8 ++ BitVec.ofNat 23 ((2 ^ 52 + dFrac x) / 2 ^ (897 - dExp x) / 2 ^ 29)
  else Config.drawArchWord draw

/-- The common core `SFD_exact` (R92): the word every admissible conversion stores, where R92 fixes one. -/
def sfdExact (x : DWord) : Option Word :=
  if dIsZero x then some (dSign x ++ 0#31)
  else if dIsInf x then some (dSign x ++ 0xFF#8 ++ 0#23)
  else if 897 ≤ dExp x ∧ dExp x ≤ 1150 ∧ x.extractLsb' 0 29 = 0 then
    some (dSign x ++ BitVec.ofNat 8 (dExp x - 896) ++ x.extractLsb' 29 23)
  else if dIsQuietNan x then some (dSign x ++ 0xFF#8 ++ x.extractLsb' 29 23)
  else none

/-- Any other `cfg.sfd` (R90): the word of R92 in the common core, a free function of the arguments elsewhere. -/
def sfdOther (x : DWord) (rn : BitVec 2) (ni : Bool) : Word :=
  match sfdExact x with
  | some w => w
  | none => Config.otherSfd x rn ni

/-- The word of `SingleFromDouble(x, rn, ni)`, that is `cfg.sfd(x, rn, ni)` (R90); `draw` is the draw's index. -/
def singleFromDouble (i : SfdInstance) (x : DWord) (rn : BitVec 2) (ni : Bool) (draw : Nat) : Word :=
  match i with
  | .rn => sfdRn x rn ni
  | .rne => sfdRne x
  | .arch => sfdArch x draw
  | .other => sfdOther x rn ni

end Sys2Proof.Machine
end

