-- ==== Sys2Proof/Machine/Flags.lean ====
section
/-! DEFINITION. The flags of the conversion (R98) and their effect on FPSCR (R102). -/

namespace Sys2Proof.Machine

/-- `NarrowingFlags(x, rn, ni)` as the set's membership test (R98), whichever instance gives the word (R90); on a
flush `UX` and `XX` are each a draw (U6). -/
def narrowingFlag (x : DWord) (rn : BitVec 2) (ni : Bool) (draw : Nat) (b : NarrowFlag) : Bool :=
  if dIsNan x then dIsSignallingNan x && b == .vxsnan
  else if dIsInf x || dIsZero x then false
  else if infMag ≤ roundedMag x rn then b == .ox || b == .xx
  else if flushes ni (roundedMag x rn) then (b == .ux || b == .xx) && Config.drawFlushFlag draw b
  else if remainderBits x = 0 then false
  else if 897 ≤ dExp x then b == .xx
  else b == .xx || b == .ux

/-- The set of raised flags, as a list without repeats (R90). -/
def narrowingFlags (x : DWord) (rn : BitVec 2) (ni : Bool) (draw : Nat) : List NarrowFlag :=
  [.xx, .ox, .ux, .vxsnan].filter (narrowingFlag x rn ni draw)

/-- Raise the flags that `raised` says; none is ever cleared (R14, R102). -/
def Fpscr.raise (f : Fpscr) (raised : NarrowFlag → Bool) : Fpscr :=
  { f with
    xx := f.xx || raised .xx
    ox := f.ox || raised .ox
    ux := f.ux || raised .ux
    vxsnan := f.vxsnan || raised .vxsnan }

/-- Put summary and result bits in place (R102, U9). -/
def Fpscr.withSummary (f : Fpscr) (b : SummaryBits) : Fpscr :=
  { f with fx := b.fx, fex := b.fex, vx := b.vx, fr := b.fr, fi := b.fi, fprf := b.fprf }

/-- `FpscrUpdate(flags)` under `cfg.fpscrPolicy` (R102): `RN`, `NI`, the enables and every status bit not named by
R102 are never changed; the summary and result bits are a draw once a flag is raised. -/
def Fpscr.update (f : Fpscr) (p : FpscrPolicy) (flags : List NarrowFlag) (draw : Nat) : Fpscr :=
  if flags = [] then f
  else
    match p with
    | .unchanged => f
    | .ieeeFlags => (f.raise fun b => flags.contains b).withSummary (Config.drawSummary draw)
    | .maySet =>
      (f.raise fun b => flags.contains b && Config.drawFlagSet draw b).withSummary (Config.drawSummary draw)

/-- Step 9 of R70 on the state. -/
def State.updateFpscr (s : State) (flags : List NarrowFlag) : State :=
  { s with fpscr := s.fpscr.update s.cfg.fpscrPolicy flags s.draws }

/-- FPSCR as the 32-bit word of the layout R14 adopts (D26), bit 0 of that layout the most significant. -/
def Fpscr.toWord (f : Fpscr) : Word :=
  BitVec.ofBool f.fx ++ BitVec.ofBool f.fex ++ BitVec.ofBool f.vx ++ BitVec.ofBool f.ox ++
  BitVec.ofBool f.ux ++ BitVec.ofBool f.zx ++ BitVec.ofBool f.xx ++ BitVec.ofBool f.vxsnan ++
  BitVec.ofBool f.vxisi ++ BitVec.ofBool f.vxidi ++ BitVec.ofBool f.vxzdz ++ BitVec.ofBool f.vximz ++
  BitVec.ofBool f.vxvc ++ BitVec.ofBool f.fr ++ BitVec.ofBool f.fi ++ f.fprf ++
  BitVec.ofBool f.reserved20 ++ BitVec.ofBool f.vxsoft ++ BitVec.ofBool f.vxsqrt ++ BitVec.ofBool f.vxcvi ++
  BitVec.ofBool f.ve ++ BitVec.ofBool f.oe ++ BitVec.ofBool f.ue ++ BitVec.ofBool f.ze ++
  BitVec.ofBool f.xe ++ BitVec.ofBool f.ni ++ f.rn

/-- The record of an FPSCR word, in the layout R14 adopts (D26). -/
def Fpscr.ofWord (w : Word) : Fpscr where
  fx := w.getMsbD 0
  fex := w.getMsbD 1
  vx := w.getMsbD 2
  ox := w.getMsbD 3
  ux := w.getMsbD 4
  zx := w.getMsbD 5
  xx := w.getMsbD 6
  vxsnan := w.getMsbD 7
  vxisi := w.getMsbD 8
  vxidi := w.getMsbD 9
  vxzdz := w.getMsbD 10
  vximz := w.getMsbD 11
  vxvc := w.getMsbD 12
  fr := w.getMsbD 13
  fi := w.getMsbD 14
  fprf := w.extractLsb' 12 5
  reserved20 := w.getMsbD 20
  vxsoft := w.getMsbD 21
  vxsqrt := w.getMsbD 22
  vxcvi := w.getMsbD 23
  ve := w.getMsbD 24
  oe := w.getMsbD 25
  ue := w.getMsbD 26
  ze := w.getMsbD 27
  xe := w.getMsbD 28
  ni := w.getMsbD 29
  rn := w.extractLsb' 0 2

end Sys2Proof.Machine
end

