-- ==== Sys2Proof/Machine/Operands.lean ====
section
/-! DEFINITION. The operand forms, the effective address and the write-back (R54 to R56, R75, R76, R78). -/

namespace Sys2Proof.Machine

/-- `RA0(i)`: the literal zero when the field is 0, else `x[i]` (R55). -/
def State.ra0 (s : State) (ra : RegNum) : DWord := if ra = 0 then 0 else s.readGpr ra

/-- The displacement, sign-extended to 64 bits and not scaled (R54). -/
def displacement (d : BitVec 16) : DWord := d.signExtend 64

/-- The effective-address sum, modulo 2^64 (R75). -/
def addressSum (b o : DWord) : DWord := b + o

/-- `Addr(s) = s[31:0]` (R31). -/
def addrOf (sum : DWord) : Addr := sum.extractLsb' 0 32

/-- `WB(s)`: what an update form writes to `x[RA]` (R76). -/
def writeBackValue (c : Config) (sum : DWord) : DWord :=
  match c.updateWriteback with
  | .ea32Zext => (addrOf sum).setWidth 64
  | .sum64 => sum

/-- Step 10 of R70: the update forms write `WB(s)` to `x[RA]`, the others write no general register. -/
def State.writeBack (s : State) (update : Option RegNum) (sum : DWord) : State :=
  match update with
  | none => s
  | some ra => s.writeGpr ra (writeBackValue s.cfg sum)

end Sys2Proof.Machine
end

