-- ==== Sys2Proof/Machine/Store.lean ====
section
/-! DEFINITION. The common step R70 and the meanings of `stfs`, `stfsu`, `stfsx`, `stfsux` (R71 to R74). -/

namespace Sys2Proof.Machine

/-- Step 4 of R70: the word stored for `f[FS]`. -/
def State.storedWord (s : State) (fs : RegNum) : Word :=
  singleFromDouble s.cfg.sfd (s.readFpr fs) s.fpscr.rn s.fpscr.ni s.draws

/-- Step 4 of R70: the flags the conversion of `f[FS]` raises. -/
def State.raisedFlags (s : State) (fs : RegNum) : List NarrowFlag :=
  narrowingFlags (s.readFpr fs) s.fpscr.rn s.fpscr.ni s.draws

/-- Steps 7 to 11 of R70, in that order: clear reservations, write the word, update FPSCR, write back, advance. -/
def State.commitStore (s : State) (fs : RegNum) (sum : DWord) (update : Option RegNum) : State :=
  (((((s.invalidateReservations (addrOf sum)).writeMem (addrOf sum) (s.storedWord fs)).updateFpscr
    (s.raisedFlags fs)).writeBack update sum).advancePc).advanceDraws

/-- The common step R70 from its second refusal on, for the base `b`, the offset `o` and, for an update form, the
register that is written back. The checks come in the order of R114 and before any effect (R115). -/
def storeSingle (fs : RegNum) (b o : DWord) (update : Option RegNum) (s : State) :
    Host.Outcome State Fault Refusal :=
  let sum := addressSum b o
  let a := addrOf sum
  if 2 ^ 32 ≤ s.pc.toNat + 4 then refuse .pcOverflow
  else if !s.msrFp then raiseFault (.floatingPointUnavailable s.pc)
  else if !s.admits a then stuckAt a
  else if s.hitsText a then refuse .storeToProgramText
  else if s.alignmentFaults a then raiseFault (.alignment s.pc a)
  else .next (s.commitStore fs sum update)

/-- `stfs FS, d(RA0)` (R71). -/
def execStfs (fs ra : RegNum) (d : BitVec 16) (s : State) : Host.Outcome State Fault Refusal :=
  storeSingle fs (s.ra0 ra) (displacement d) none s

/-- `stfsu FS, d(RA)` (R72); `RA = 0` is an invalid form (R59). -/
def execStfsu (fs ra : RegNum) (d : BitVec 16) (s : State) : Host.Outcome State Fault Refusal :=
  if ra = 0 then refuse .invalidForm
  else storeSingle fs (s.readGpr ra) (displacement d) (some ra) s

/-- `stfsx FS, RA, RB` (R73). -/
def execStfsx (fs ra rb : RegNum) (s : State) : Host.Outcome State Fault Refusal :=
  storeSingle fs (s.ra0 ra) (s.readGpr rb) none s

/-- `stfsux FS, RA, RB` (R74); `RA = 0` is an invalid form (R59). -/
def execStfsux (fs ra rb : RegNum) (s : State) : Host.Outcome State Fault Refusal :=
  if ra = 0 then refuse .invalidForm
  else storeSingle fs (s.readGpr ra) (s.readGpr rb) (some ra) s

end Sys2Proof.Machine
end

