-- ==== Sys2Proof/Machine/Step.lean ====
section
/-! DEFINITION. One step (R136): fetch, decode, execute; and the placing of an instruction where step fetches it. -/

namespace Sys2Proof.Machine

/-- R136: `W <- Fetch(pc)`, decode, execute R70. At the final state (R137) and for a pc outside the text there is
no word, and the step is refused (log entry 12). -/
def step (s : State) : Host.Outcome State Fault Refusal :=
  if s.ended then .refused .runEnded
  else
    match s.fetch with
    | none => .refused .pcOutsideText
    | some w =>
      match decodeWord w with
      | .instr i => exec i s
      | .invalidForm => .refused .invalidForm
      | .notInSpec => .refused .notInSpec

/-- The state with the instruction word whose table bits are `w` at the pc, inside the program text: the text is
left where it is if the pc already lies in it, and is else the one word at the pc (log entry 14). -/
def State.withFetchWord (s : State) (nbits w : Nat) : State :=
  { s with
    mem := s.mem.writeWord s.pc.toNat (BitVec.ofNat 32 (w % 2 ^ nbits))
    text := if s.fetch.isSome then s.text else ⟨s.pc, 1⟩ }

end Sys2Proof.Machine
end

