-- ==== Sys2Proof/Safety.lean ====
section
/-! DEFINITION. The launch premises of R131, the invariant of a run, and the terms statements use: the operands of an
instruction, when a store completes and what a completed store does. -/

namespace Sys2Proof

/-- The register number in the field `FS`. -/
def Instr.source : Instr → RegNum
  | .stfs fs _ _ => fs
  | .stfsu fs _ _ => fs
  | .stfsx fs _ _ => fs
  | .stfsux fs _ _ => fs

/-- The general register an instruction writes back to (R78). -/
def Instr.updates : Instr → Option RegNum
  | .stfs _ _ _ => none
  | .stfsu _ ra _ => some ra
  | .stfsx _ _ _ => none
  | .stfsux _ ra _ => some ra

/-- The rows of R57: the mask and the match of `stfs`, `stfsu`, `stfsx`, `stfsux`. -/
def opcodeRows : List (Word × Word) :=
  [(0xFC000000, 0xD0000000), (0xFC000000, 0xD4000000), (0xFC0007FF, 0x7C00052E), (0xFC0007FF, 0x7C00056E)]

/-- R57: a word `W` is the instruction when `W AND mask = match`. -/
abbrev MatchesRow (w : Word) (row : Word × Word) : Prop := w &&& row.1 = row.2

/-! The configuration with one parameter set to another value. -/

def Config.setSfd (c : Config) (i : SfdInstance) : Config := { c with sfd := i }

def Config.setPolicy (c : Config) (p : FpscrPolicy) : Config := { c with fpscrPolicy := p }

def Config.setWriteback (c : Config) (w : UpdateWriteback) : Config := { c with updateWriteback := w }

namespace Machine

/-- The state with another configuration. -/
def State.withCfg (s : State) (c : Config) : State := { s with cfg := c }

/-- The outcome with the next state, if there is one, changed by `f`. -/
def mapNext (f : State → State) :
    Host.Outcome State Fault Refusal → Host.Outcome State Fault Refusal
  | .next t => .next (f t)
  | .fault r => .fault r
  | .refused r => .refused r

/-- One of the four flags of FPSCR that this family can raise (R14). -/
def Fpscr.flag (f : Fpscr) : NarrowFlag → Bool
  | .xx => f.xx
  | .ox => f.ox
  | .ux => f.ux
  | .vxsnan => f.vxsnan

/-- Every field of FPSCR but the four flags and the summary and result bits is the same (R102). -/
def Fpscr.SameControls (f g : Fpscr) : Prop :=
  f.zx = g.zx ∧ f.vxisi = g.vxisi ∧ f.vxidi = g.vxidi ∧ f.vxzdz = g.vxzdz ∧ f.vximz = g.vximz ∧
  f.vxvc = g.vxvc ∧ f.reserved20 = g.reserved20 ∧ f.vxsoft = g.vxsoft ∧ f.vxsqrt = g.vxsqrt ∧
  f.vxcvi = g.vxcvi ∧ f.ve = g.ve ∧ f.oe = g.oe ∧ f.ue = g.ue ∧ f.ze = g.ze ∧ f.xe = g.xe ∧
  f.ni = g.ni ∧ f.rn = g.rn

/-- The base operand `b` (R78). -/
def State.baseOf (s : State) : Instr → DWord
  | .stfs _ ra _ => s.ra0 ra
  | .stfsu _ ra _ => s.readGpr ra
  | .stfsx _ ra _ => s.ra0 ra
  | .stfsux _ ra _ => s.readGpr ra

/-- The offset operand `o` (R78). -/
def State.offsetOf (s : State) : Instr → DWord
  | .stfs _ _ d => displacement d
  | .stfsu _ _ d => displacement d
  | .stfsx _ _ rb => s.readGpr rb
  | .stfsux _ _ rb => s.readGpr rb

/-- The sum `s` of an instruction (R75). -/
def State.sumOf (s : State) (i : Instr) : DWord := addressSum (s.baseOf i) (s.offsetOf i)

/-- The address an instruction stores to (R31). -/
def State.addrOfInstr (s : State) (i : Instr) : Addr := addrOf (s.sumOf i)

/-! The launch premises of R131. `NoFaultRecorded`, `NoInterrupt` and `NoExternalWrites` hold of every run of this
model: a fault is an outcome and no state, and only `step` changes a state. -/

/-- `FpEnabled`. -/
abbrev State.FpEnabled (s : State) : Prop := s.msrFp = true

/-- `TextWellFormed`: every word of the program text decodes to one of the four instructions. -/
abbrev State.TextWellFormed (s : State) : Prop :=
  ∀ i ∈ List.range s.text.len, (decodeWord (s.mem.readWord (s.text.base.toNat + 4 * i))).instr?.isSome = true

/-- `TextInRange`: the base is a multiple of 4 and the text ends at or below `2^32 - 4`. -/
abbrev State.TextInRange (s : State) : Prop :=
  s.text.base.toNat % 4 = 0 ∧ s.text.limit ≤ 2 ^ 32 - 4

/-- `StoresAdmitted` for one store at `a`. -/
abbrev State.StoreAdmitted (s : State) (a : Addr) : Prop := s.admits a = true ∧ s.hitsText a = false

/-- `NoCiMisalign` for one store at `a`. -/
abbrev State.NoCiMisalign (s : State) (a : Addr) : Prop := misaligned a = false ∨ s.hitsInhibited a = false

/-- `FpscrKnown(rn, ni)`. -/
abbrev State.FpscrKnown (s : State) (rn : BitVec 2) (ni : Bool) : Prop := s.fpscr.rn = rn ∧ s.fpscr.ni = ni

/-- `SourcesExact` for one source register: it is in the common core of R92. -/
abbrev State.SourceExact (s : State) (fs : RegNum) : Prop := (sfdExact (s.readFpr fs)).isSome = true

/-- `EA_fits32(s) := s < 2^32` (R76). -/
abbrev EaFits32 (sum : DWord) : Prop := sum.toNat < 2 ^ 32

/-- `FpEnablesClear`. -/
abbrev State.FpEnablesClear (s : State) : Prop :=
  s.fpscr.ve = false ∧ s.fpscr.oe = false ∧ s.fpscr.ue = false ∧ s.fpscr.xe = false

/-! Completion and its effect. -/

/-- When a store at `a` is performed whatever the draws say: steps 1, 2, 5 and 6 of R70 all let it pass. -/
abbrev State.Storable (s : State) (a : Addr) : Prop :=
  s.pc.toNat + 4 < 2 ^ 32 ∧ s.FpEnabled ∧ s.StoreAdmitted a ∧
    (s.NoCiMisalign a ∨ s.cfg.ciMisalign = .perform)

/-- The four bytes of the word `w` at `a`, most significant byte first (R32). -/
def BigEndianAt (m : Memory) (a : Addr) (w : Word) : Prop :=
  m.read a.toNat = w.extractLsb' 24 8 ∧ m.read (a.toNat + 1) = w.extractLsb' 16 8 ∧
  m.read (a.toNat + 2) = w.extractLsb' 8 8 ∧ m.read (a.toNat + 3) = w.extractLsb' 0 8

/-- What a completed store of `f[FS]` at `a` does to the state but for the general registers (R19, R70 steps 4, 7 to 9
and 11): the four bytes of `SingleFromDouble(f[FS], RN, NI)`, most significant first; the reservations; FPSCR with the
flags of that conversion; the pc; and nothing else. -/
def StoreEffect (s t : State) (fs : RegNum) (a : Addr) : Prop :=
  BigEndianAt t.mem a (singleFromDouble s.cfg.sfd (s.readFpr fs) s.fpscr.rn s.fpscr.ni s.draws) ∧
  (∀ b, b < a.toNat ∨ a.toNat + 3 < b → t.mem.read b = s.mem.read b) ∧
  t.reservations = s.reservations.map (keepReservation s.cfg a) ∧
  t.fpscr = s.fpscr.update s.cfg.fpscrPolicy
    (narrowingFlags (s.readFpr fs) s.fpscr.rn s.fpscr.ni s.draws) s.draws ∧
  t.pc = s.pc + 4 ∧ t.fpr = s.fpr ∧ t.msrFp = s.msrFp ∧ t.text = s.text ∧ t.cfg = s.cfg

/-- The general registers after an update form: `x[RA]` holds `v`, the others are as before (R19, R76). -/
def GprUpdated (s t : State) (ra : RegNum) (v : DWord) : Prop :=
  t.readGpr ra = v ∧ ∀ r, r ≠ ra → t.readGpr r = s.readGpr r

/-! The invariant of a run. -/

/-- Memory keeps its canonical form, the text lies in range on a multiple of 4 (R131 `TextInRange`), and the pc is a
multiple of 4 (R12) in `[base, base + 4n]` (R137). -/
abbrev State.Inv (s : State) : Prop :=
  s.mem.wf = true ∧ s.TextInRange ∧ s.pc.toNat % 4 = 0 ∧
    s.text.base.toNat ≤ s.pc.toNat ∧ s.pc.toNat ≤ s.text.limit

end Machine

end Sys2Proof
end

