-- ==== Sys2Proof/Safety/Narrowing.lean ====
section
/-! DEFINITION. The narrowing of R91, R93, R94 over exact rationals, as the spec words it: the yardstick the integer
formulation of the machine (R99) is stated against. -/

namespace Sys2Proof.Narrowing

open Sys2Proof.Machine

/-- `x` is finite and not a zero. -/
def Finite (x : DWord) : Prop := dIsNan x = false ∧ dIsInf x = false ∧ dIsZero x = false

/-- The magnitude `v` of a finite double (R91). -/
def magnitude (x : DWord) : ℚ :=
  if dExp x = 0 then (dFrac x : ℚ) * 2 ^ (-1074 : ℤ)
  else (2 ^ 52 + (dFrac x : ℚ)) * 2 ^ ((dExp x : ℤ) - 1075)

/-- The magnitude of the finite binary32 word with magnitude bits `m` (R91). -/
def singleMagnitude (m : ℕ) : ℚ :=
  if m / 2 ^ 23 = 0 then ((m % 2 ^ 23 : ℕ) : ℚ) * 2 ^ (-149 : ℤ)
  else (2 ^ 23 + ((m % 2 ^ 23 : ℕ) : ℚ)) * 2 ^ (((m / 2 ^ 23 : ℕ) : ℤ) - 150)

/-- `MAXF = (2^24 - 1) * 2^104` (R91). -/
def maxF : ℚ := (2 ^ 24 - 1) * 2 ^ 104

/-- `MINN = 2^-126` (R91). -/
def minN : ℚ := 2 ^ (-126 : ℤ)

/-- `q`: the spacing of binary32 numbers at `v` (R93). -/
def spacing (v : ℚ) : ℚ := 2 ^ (max (Int.log 2 v) (-126) - 23)

/-- `lo = floor(v / q)` (R93). -/
def lower (v : ℚ) : ℤ := ⌊v / spacing v⌋

/-- `rem = v / q - lo` (R93). -/
def remainder (v : ℚ) : ℚ := v / spacing v - lower v

/-- `RoundUp(rn, s, lo, rem)` (R94). -/
def up (rn : BitVec 2) (s : BitVec 1) (lo : ℤ) (rem : ℚ) : ℤ :=
  if rem = 0 then 0
  else if rn = 0 then (if 1 / 2 < rem ∨ (rem = 1 / 2 ∧ lo % 2 = 1) then 1 else 0)
  else if rn = 1 then 0
  else if rn = 2 then (if s = 0 then 1 else 0)
  else (if s = 1 then 1 else 0)

/-- `r`: the rounded magnitude (R93). -/
def rounded (x : DWord) (rn : BitVec 2) : ℚ :=
  ((lower (magnitude x) + up rn (dSign x) (lower (magnitude x)) (remainder (magnitude x)) : ℤ) : ℚ) *
    spacing (magnitude x)

/-- R97: the rounded magnitude is flushed. -/
def Flushed (x : DWord) (rn : BitVec 2) (ni : Bool) : Prop :=
  ni = true ∧ 0 < rounded x rn ∧ rounded x rn < minN

end Sys2Proof.Narrowing
end

