-- ==== Sys2Proof/Certificates/Slice0/Obligations.lean ====
section
/-! DEFINITION. The statements for the provers. Each docstring names the rule of spec/ it formalises. -/

open Sys2Proof Sys2Proof.Machine

/-! Encoding. -/

/-- R51, R52, R53: decoding the word of a well-formed instruction gives the instruction back. -/
def Obligations.DecodeOfEncode : Prop :=
  ∀ i : Instr, i.wf = true → decodeWord (encode i) = .instr i

/-- R51, R52, R53: a word that decodes to an instruction is the word of that well-formed instruction, so no bit of
it is dropped. -/
def Obligations.EncodeOfDecode : Prop :=
  ∀ (w : Word) (i : Instr), decodeWord w = .instr i → i.wf = true ∧ encode i = w

/-- R53: the fields as quotients and remainders of the word, and the word as a sum of its fields. -/
def Obligations.FieldsAndAssemblyAsNumbers : Prop :=
  (∀ w : Word,
    (fieldOpcd w).toNat = w.toNat >>> 26 ∧ (fieldFs w).toNat = (w.toNat >>> 21) % 32 ∧
    (fieldRa w).toNat = (w.toNat >>> 16) % 32 ∧ (fieldRb w).toNat = (w.toNat >>> 11) % 32 ∧
    (fieldXo w).toNat = (w.toNat >>> 1) % 1024 ∧ (fieldRc w).toNat = w.toNat % 2 ∧
    (fieldD w).toNat = w.toNat % 65536) ∧
  (∀ (fs ra : RegNum) (d : BitVec 16),
    (encode (.stfs fs ra d)).toNat = 52 * 2 ^ 26 + fs.toNat * 2 ^ 21 + ra.toNat * 2 ^ 16 + d.toNat ∧
    (encode (.stfsu fs ra d)).toNat = 53 * 2 ^ 26 + fs.toNat * 2 ^ 21 + ra.toNat * 2 ^ 16 + d.toNat) ∧
  (∀ fs ra rb : RegNum,
    (encode (.stfsx fs ra rb)).toNat =
      31 * 2 ^ 26 + fs.toNat * 2 ^ 21 + ra.toNat * 2 ^ 16 + rb.toNat * 2 ^ 11 + 663 * 2 ∧
    (encode (.stfsux fs ra rb)).toNat =
      31 * 2 ^ 26 + fs.toNat * 2 ^ 21 + ra.toNat * 2 ^ 16 + rb.toNat * 2 ^ 11 + 695 * 2)

/-- R57: `W AND mask = match` selects the instruction (an update form with `RA = 0` being an invalid form, R59), and
the four patterns are disjoint; the opcode word is the word with every operand field zero. -/
def Obligations.MaskAndMatchSelect : Prop :=
  (∀ w : Word,
    (MatchesRow w (0xFC000000, 0xD0000000) →
      decodeWord w = .instr (.stfs (fieldFs w) (fieldRa w) (fieldD w))) ∧
    (MatchesRow w (0xFC000000, 0xD4000000) → fieldRa w ≠ 0 →
      decodeWord w = .instr (.stfsu (fieldFs w) (fieldRa w) (fieldD w))) ∧
    (MatchesRow w (0xFC0007FF, 0x7C00052E) →
      decodeWord w = .instr (.stfsx (fieldFs w) (fieldRa w) (fieldRb w))) ∧
    (MatchesRow w (0xFC0007FF, 0x7C00056E) → fieldRa w ≠ 0 →
      decodeWord w = .instr (.stfsux (fieldFs w) (fieldRa w) (fieldRb w)))) ∧
  opcodeRows.Pairwise (fun r q => ∀ w : Word, ¬ (MatchesRow w r ∧ MatchesRow w q)) ∧
  encode (.stfs 0 0 0) = 0xD0000000 ∧ encode (.stfsu 0 0 0) = 0xD4000000 ∧
  encode (.stfsx 0 0 0) = 0x7C00052E ∧ encode (.stfsux 0 0 0) = 0x7C00056E

/-- R59: an update form with `RA = 0` decodes to `InvalidForm` and is refused, by the step and by the instruction
itself; no other word is an invalid form; `stfsux` with `RA = RB` not 0 is valid. -/
def Obligations.InvalidFormsRefused : Prop :=
  (∀ w : Word, decodeWord w = .invalidForm ↔
    (MatchesRow w (0xFC000000, 0xD4000000) ∨ MatchesRow w (0xFC0007FF, 0x7C00056E)) ∧ fieldRa w = 0) ∧
  (∀ (s : State) (w : Word), s.ended = false → s.fetch = some w → decodeWord w = .invalidForm →
    step s = .refused .invalidForm) ∧
  (∀ (fs rb : RegNum) (d : BitVec 16) (s : State),
    exec (.stfsu fs 0 d) s = .refused .invalidForm ∧ exec (.stfsux fs 0 rb) s = .refused .invalidForm) ∧
  (∀ fs ra : RegNum, ra ≠ 0 → decodeWord (encode (.stfsux fs ra ra)) = .instr (.stfsux fs ra ra))

/-- R58, R60: a word that matches no row, in particular an X form with bit 31 set, decodes to `NotInSpec` and the
step refuses it; every other word decodes to an instruction or to `InvalidForm`, and the step refuses that too. -/
def Obligations.OtherWordsRefused : Prop :=
  (∀ w : Word, decodeWord w = .notInSpec ↔ ∀ row ∈ opcodeRows, ¬ MatchesRow w row) ∧
  (∀ w : Word, MatchesRow w (0xFC0007FF, 0x7C00052F) ∨ MatchesRow w (0xFC0007FF, 0x7C00056F) →
    decodeWord w = .notInSpec) ∧
  (∀ (s : State) (w : Word), s.ended = false → s.fetch = some w →
    (decodeWord w = .notInSpec → step s = .refused .notInSpec) ∧
    (decodeWord w = .invalidForm → step s = .refused .invalidForm))

/-- R57 with the words of 95_test_vectors.md part 2: a few words decode as they are written. -/
def Obligations.SpecWordsDecode : Prop :=
  decodeWord 0xD0230008 = .instr (.stfs 1 3 8) ∧
  decodeWord 0xD441FFFC = .instr (.stfsu 2 1 (-4)) ∧
  decodeWord 0x7C642D2E = .instr (.stfsx 3 4 5) ∧
  decodeWord 0x7FFFF56E = .instr (.stfsux 31 31 30) ∧
  decodeWord 0xD4200004 = .invalidForm ∧
  decodeWord 0x7C642D2F = .notInSpec

/-! The step. -/

/-- R136: when the word at the pc decodes to an instruction, the step is that instruction's execution and nothing
else. -/
def Obligations.StepRunsDecodedInstruction : Prop :=
  ∀ (s : State) (w : Word) (i : Instr), s.ended = false → s.fetch = some w → decodeWord w = .instr i →
    step s = exec i s

/-- R33, R135: `Fetch(pc)` is the big-endian word of the four bytes at the pc, for a pc at a word of the text. That
the text lies in memory is the model's choice (log entry 11). -/
def Obligations.FetchIsBigEndianWord : Prop :=
  ∀ (s : State) (k : Nat), s.text.base.toNat % 4 = 0 → k < s.text.len →
    s.pc.toNat = s.text.base.toNat + 4 * k →
    s.fetch = some (s.mem.read s.pc.toNat ++ s.mem.read (s.pc.toNat + 1) ++ s.mem.read (s.pc.toNat + 2) ++
      s.mem.read (s.pc.toNat + 3))

/-- R137 (the refusal itself is the model's choice, log entry 12): at `pc = base + 4n` the run has ended and there is
no step. -/
def Obligations.RunEndsAfterLastWord : Prop :=
  ∀ s : State, s.pc.toNat = s.text.base.toNat + 4 * s.text.len → step s = .refused .runEnded

/-! Operands and address. -/

/-- R55: `RA0(0)` is the literal zero and `RA0(i)` is `x[i]`; with `RA = 0` the non-update forms do not read `x[0]`
as base: another value there changes no outcome and no state but `x[0]` itself. With `RA` not 0 all four forms store at
`x[RA]` plus the offset; the update forms read `x[RA]` itself, and `RA = 0` is an invalid form of theirs. -/
def Obligations.Ra0IsLiteralZero : Prop :=
  (∀ s : State, s.ra0 0 = 0) ∧
  (∀ (s : State) (r : RegNum), r ≠ 0 → s.ra0 r = s.readGpr r) ∧
  (∀ (s : State) (fs : RegNum) (d : BitVec 16) (v : DWord),
    exec (.stfs fs 0 d) (s.writeGpr 0 v) = mapNext (fun t => t.writeGpr 0 v) (exec (.stfs fs 0 d) s)) ∧
  (∀ (s : State) (fs rb : RegNum) (v : DWord), rb ≠ 0 →
    exec (.stfsx fs 0 rb) (s.writeGpr 0 v) = mapNext (fun t => t.writeGpr 0 v) (exec (.stfsx fs 0 rb) s)) ∧
  (∀ (s : State) (fs ra : RegNum) (d : BitVec 16), ra ≠ 0 → s.mem.wf = true →
    s.Storable (addrOf (addressSum (s.readGpr ra) (displacement d))) →
    ∀ i, i = .stfs fs ra d ∨ i = .stfsu fs ra d →
      ∃ t, exec i s = .next t ∧ StoreEffect s t fs (addrOf (addressSum (s.readGpr ra) (displacement d)))) ∧
  (∀ (s : State) (fs ra rb : RegNum), ra ≠ 0 → s.mem.wf = true →
    s.Storable (addrOf (addressSum (s.readGpr ra) (s.readGpr rb))) →
    ∀ i, i = .stfsx fs ra rb ∨ i = .stfsux fs ra rb →
      ∃ t, exec i s = .next t ∧ StoreEffect s t fs (addrOf (addressSum (s.readGpr ra) (s.readGpr rb)))) ∧
  (∀ (s : State) (fs rb : RegNum) (d : BitVec 16),
    exec (.stfsu fs 0 d) s = .refused .invalidForm ∧ exec (.stfsux fs 0 rb) s = .refused .invalidForm)

/-- R54: the displacement is `W[15:0]` read as a two's-complement number, neither scaled nor shifted. -/
def Obligations.DisplacementIsSigned : Prop :=
  ∀ w : Word,
    (displacement (fieldD w)).toInt =
      (if w.toNat % 65536 < 32768 then ((w.toNat % 65536 : Nat) : Int) else ((w.toNat % 65536 : Nat) : Int) - 65536) ∧
    -32768 ≤ (displacement (fieldD w)).toInt ∧ (displacement (fieldD w)).toInt ≤ 32767

/-- R75: the sum is one addition modulo 2^64, with the rule's four examples. -/
def Obligations.AddressSumModulo : Prop :=
  (∀ b o : DWord, (addressSum b o).toNat = (b.toNat + o.toNat) % 2 ^ 64) ∧
  addressSum 0xFFFFFFFFFFFFFFFF 1 = 0 ∧
  addressSum 0 (displacement 0x8000) = 0xFFFFFFFFFFFF8000 ∧
  addressSum 0 (displacement 0x7FFF) = 0x0000000000007FFF ∧
  addressSum 0x0000000000001000 (displacement 0xFFFC) = 0x0000000000000FFC

/-- R31: the address is the low 32 bits of the sum; the high 32 bits of a register that is base or index, or of any
other, take no part in it. Another value there with the same low half changes no outcome of `stfs` or `stfsx` and no
state but that register; for every form it changes no fault and no refusal, and a completed instruction leaves the same
memory, the same other state, and general registers that differ only in the high halves of that register and of the one
written back. -/
def Obligations.HighHalfNotInAddress : Prop :=
  (∀ sum : DWord, (addrOf sum).toNat = sum.toNat % 2 ^ 32) ∧
  ∀ (i : Instr) (s : State) (r : RegNum) (v : DWord),
    v.extractLsb' 0 32 = (s.readGpr r).extractLsb' 0 32 →
    (i.updates = none → exec i (s.writeGpr r v) = mapNext (fun t => t.writeGpr r v) (exec i s)) ∧
    (∀ f, exec i s = .fault f → exec i (s.writeGpr r v) = .fault f) ∧
    (∀ q, exec i s = .refused q → exec i (s.writeGpr r v) = .refused q) ∧
    (∀ t, exec i s = .next t → ∃ t', exec i (s.writeGpr r v) = .next t' ∧
      t'.mem = t.mem ∧ t'.reservations = t.reservations ∧ t'.fpscr = t.fpscr ∧ t'.pc = t.pc ∧
      t'.fpr = t.fpr ∧ t'.msrFp = t.msrFp ∧ t'.text = t.text ∧ t'.cfg = t.cfg ∧
      (∀ n, n ≠ r → i.updates ≠ some n → t'.readGpr n = t.readGpr n) ∧
      ∀ n, (t'.readGpr n).extractLsb' 0 32 = (t.readGpr n).extractLsb' 0 32)

/-- R76: the two write-back values, and that they agree exactly when the sum is below 2^32. -/
def Obligations.WriteBackByConfiguration : Prop :=
  ∀ (c : Config) (sum : DWord),
    (c.updateWriteback = .ea32Zext → (writeBackValue c sum).toNat = sum.toNat % 2 ^ 32) ∧
    (c.updateWriteback = .sum64 → writeBackValue c sum = sum) ∧
    (writeBackValue (c.setWriteback .ea32Zext) sum = writeBackValue (c.setWriteback .sum64) sum ↔ EaFits32 sum)

/-! The four instructions. -/

/-- R71: `stfs` completes for every storable address `(RA0(RA) + sext(d))[31:0]`, stores `SingleFromDouble(f[FS])`
there and writes no general register; with `MSR.FP = 0` it raises FloatingPointUnavailable, and Alignment only for a
misaligned store to cache-inhibited storage; at an address above `0xFFFFFFFC` it does not complete. -/
def Obligations.StfsRule : Prop :=
  ∀ (fs ra : RegNum) (d : BitVec 16) (s : State),
    (encode (.stfs fs ra d)).toNat = 0xD0000000 + fs.toNat * 2 ^ 21 + ra.toNat * 2 ^ 16 + d.toNat ∧
    decodeWord (encode (.stfs fs ra d)) = .instr (.stfs fs ra d) ∧
    (s.mem.wf = true →
      s.Storable (addrOf (addressSum (if ra = 0 then 0 else s.readGpr ra) (displacement d))) →
      ∃ t, exec (.stfs fs ra d) s = .next t ∧
        StoreEffect s t fs (addrOf (addressSum (if ra = 0 then 0 else s.readGpr ra) (displacement d))) ∧
        t.gpr = s.gpr) ∧
    (s.pc.toNat + 4 < 2 ^ 32 → s.msrFp = false →
      exec (.stfs fs ra d) s = .fault (.floatingPointUnavailable s.pc)) ∧
    (0xFFFFFFFC < (addrOf (addressSum (if ra = 0 then 0 else s.readGpr ra) (displacement d))).toNat →
      ∀ t, exec (.stfs fs ra d) s ≠ .next t) ∧
    (∀ p a, exec (.stfs fs ra d) s = .fault (.alignment p a) →
      misaligned a = true ∧ s.hitsInhibited a = true ∧ s.cfg.ciMisalign ≠ .perform)

/-- R72: `stfsu` with `RA` not 0 completes for every storable address `(x[RA] + sext(d))[31:0]`, stores there and
writes `WB` of the sum to `x[RA]`; with `RA = 0` it is refused; exceptions and admission as for `stfs`. -/
def Obligations.StfsuRule : Prop :=
  ∀ (fs ra : RegNum) (d : BitVec 16) (s : State),
    (encode (.stfsu fs ra d)).toNat = 0xD4000000 + fs.toNat * 2 ^ 21 + ra.toNat * 2 ^ 16 + d.toNat ∧
    (ra = 0 → exec (.stfsu fs ra d) s = .refused .invalidForm) ∧
    (ra ≠ 0 →
      decodeWord (encode (.stfsu fs ra d)) = .instr (.stfsu fs ra d) ∧
      (s.mem.wf = true → s.Storable (addrOf (addressSum (s.readGpr ra) (displacement d))) →
        ∃ t, exec (.stfsu fs ra d) s = .next t ∧
          StoreEffect s t fs (addrOf (addressSum (s.readGpr ra) (displacement d))) ∧
          GprUpdated s t ra (writeBackValue s.cfg (addressSum (s.readGpr ra) (displacement d)))) ∧
      (s.pc.toNat + 4 < 2 ^ 32 → s.msrFp = false →
        exec (.stfsu fs ra d) s = .fault (.floatingPointUnavailable s.pc)) ∧
      (0xFFFFFFFC < (addrOf (addressSum (s.readGpr ra) (displacement d))).toNat →
        ∀ t, exec (.stfsu fs ra d) s ≠ .next t) ∧
      (∀ p a, exec (.stfsu fs ra d) s = .fault (.alignment p a) →
        misaligned a = true ∧ s.hitsInhibited a = true ∧ s.cfg.ciMisalign ≠ .perform))

/-- R73: `stfsx` completes for every storable address `(RA0(RA) + x[RB])[31:0]`, stores there and writes no general
register; exceptions and admission as for `stfs`. -/
def Obligations.StfsxRule : Prop :=
  ∀ (fs ra rb : RegNum) (s : State),
    (encode (.stfsx fs ra rb)).toNat =
      0x7C00052E + fs.toNat * 2 ^ 21 + ra.toNat * 2 ^ 16 + rb.toNat * 2 ^ 11 ∧
    decodeWord (encode (.stfsx fs ra rb)) = .instr (.stfsx fs ra rb) ∧
    (s.mem.wf = true →
      s.Storable (addrOf (addressSum (if ra = 0 then 0 else s.readGpr ra) (s.readGpr rb))) →
      ∃ t, exec (.stfsx fs ra rb) s = .next t ∧
        StoreEffect s t fs (addrOf (addressSum (if ra = 0 then 0 else s.readGpr ra) (s.readGpr rb))) ∧
        t.gpr = s.gpr) ∧
    (s.pc.toNat + 4 < 2 ^ 32 → s.msrFp = false →
      exec (.stfsx fs ra rb) s = .fault (.floatingPointUnavailable s.pc)) ∧
    (0xFFFFFFFC < (addrOf (addressSum (if ra = 0 then 0 else s.readGpr ra) (s.readGpr rb))).toNat →
      ∀ t, exec (.stfsx fs ra rb) s ≠ .next t) ∧
    (∀ p a, exec (.stfsx fs ra rb) s = .fault (.alignment p a) →
      misaligned a = true ∧ s.hitsInhibited a = true ∧ s.cfg.ciMisalign ≠ .perform)

/-- R74: `stfsux` with `RA` not 0 completes for every storable address `(x[RA] + x[RB])[31:0]`, stores there and
writes `WB` of the sum to `x[RA]`, both operands read before it (`RA = RB` gives twice the old value); with `RA = 0`
it is refused; exceptions and admission as for `stfs`. -/
def Obligations.StfsuxRule : Prop :=
  ∀ (fs ra rb : RegNum) (s : State),
    (encode (.stfsux fs ra rb)).toNat =
      0x7C00056E + fs.toNat * 2 ^ 21 + ra.toNat * 2 ^ 16 + rb.toNat * 2 ^ 11 ∧
    (ra = 0 → exec (.stfsux fs ra rb) s = .refused .invalidForm) ∧
    (ra ≠ 0 →
      decodeWord (encode (.stfsux fs ra rb)) = .instr (.stfsux fs ra rb) ∧
      (s.mem.wf = true → s.Storable (addrOf (addressSum (s.readGpr ra) (s.readGpr rb))) →
        ∃ t, exec (.stfsux fs ra rb) s = .next t ∧
          StoreEffect s t fs (addrOf (addressSum (s.readGpr ra) (s.readGpr rb))) ∧
          GprUpdated s t ra (writeBackValue s.cfg (addressSum (s.readGpr ra) (s.readGpr rb)))) ∧
      (rb = ra → s.sumOf (.stfsux fs ra rb) = 2 * s.readGpr ra) ∧
      (s.pc.toNat + 4 < 2 ^ 32 → s.msrFp = false →
        exec (.stfsux fs ra rb) s = .fault (.floatingPointUnavailable s.pc)) ∧
      (0xFFFFFFFC < (addrOf (addressSum (s.readGpr ra) (s.readGpr rb))).toNat →
        ∀ t, exec (.stfsux fs ra rb) s ≠ .next t) ∧
      (∀ p a, exec (.stfsux fs ra rb) s = .fault (.alignment p a) →
        misaligned a = true ∧ s.hitsInhibited a = true ∧ s.cfg.ciMisalign ≠ .perform))

/-- R19: when `stfs` or `stfsx` answers a next state, all general and floating-point registers, `MSR.FP`, the text,
the configuration and every field of FPSCR but the flags and the summary and result bits are unchanged, no
reservation is created, and every byte outside the four stored ones reads as before. -/
def Obligations.NonUpdateFrame : Prop :=
  ∀ (i : Instr) (s t : State), i.updates = none → s.mem.wf = true → exec i s = .next t →
    t.gpr = s.gpr ∧ t.fpr = s.fpr ∧ t.msrFp = s.msrFp ∧ t.text = s.text ∧ t.cfg = s.cfg ∧
    Fpscr.SameControls t.fpscr s.fpscr ∧
    (∀ (n : Nat) (g : Nat), t.reservations[n]? = some (some g) → s.reservations[n]? = some (some g)) ∧
    ∀ b, b < (s.addrOfInstr i).toNat ∨ (s.addrOfInstr i).toNat + 3 < b → t.mem.read b = s.mem.read b

/-- R19: when `stfsu` or `stfsux` answers a next state, every general register but `x[RA]`, and all the rest as in
`NonUpdateFrame`, is unchanged. -/
def Obligations.UpdateFrame : Prop :=
  ∀ (i : Instr) (ra : RegNum) (s t : State), i.updates = some ra → s.mem.wf = true → exec i s = .next t →
    (∀ r, r ≠ ra → t.readGpr r = s.readGpr r) ∧ t.fpr = s.fpr ∧ t.msrFp = s.msrFp ∧ t.text = s.text ∧
    t.cfg = s.cfg ∧ Fpscr.SameControls t.fpscr s.fpscr ∧
    (∀ (n : Nat) (g : Nat), t.reservations[n]? = some (some g) → s.reservations[n]? = some (some g)) ∧
    ∀ b, b < (s.addrOfInstr i).toNat ∨ (s.addrOfInstr i).toNat + 3 < b → t.mem.read b = s.mem.read b

/-- R32: when an instruction completes, the word `SingleFromDouble(f[FS], RN, NI)` lies in the four bytes at its
address, `w[31:24]` first, no other byte is written, the address is at most `2^32 - 4` and the four bytes are
admitted. -/
def Obligations.CompletedStoreIsBigEndian : Prop :=
  ∀ (i : Instr) (s t : State), s.mem.wf = true → exec i s = .next t →
    (∀ w, w = singleFromDouble s.cfg.sfd (s.readFpr i.source) s.fpscr.rn s.fpscr.ni s.draws →
      t.mem.read (s.addrOfInstr i).toNat = w.extractLsb' 24 8 ∧
      t.mem.read ((s.addrOfInstr i).toNat + 1) = w.extractLsb' 16 8 ∧
      t.mem.read ((s.addrOfInstr i).toNat + 2) = w.extractLsb' 8 8 ∧
      t.mem.read ((s.addrOfInstr i).toNat + 3) = w.extractLsb' 0 8) ∧
    (∀ b, b < (s.addrOfInstr i).toNat ∨ (s.addrOfInstr i).toNat + 3 < b → t.mem.read b = s.mem.read b) ∧
    (s.addrOfInstr i).toNat ≤ 2 ^ 32 - 4 ∧ ∀ k < 4, memAdmit s.cfg ((s.addrOfInstr i).toNat + k) = true

/-! Exceptions, refusals and their order. -/

/-- R111: with `MSR.FP = 0` each of the four instructions (in a valid form, below the top of the pc's range) raises
FloatingPointUnavailable whatever its address, and it is raised for no other reason. -/
def Obligations.FloatingPointUnavailableRule : Prop :=
  (∀ (i : Instr) (s : State), i.wf = true → s.pc.toNat + 4 < 2 ^ 32 → s.msrFp = false →
    exec i s = .fault (.floatingPointUnavailable s.pc)) ∧
  (∀ (i : Instr) (s : State) (p : Addr), exec i s = .fault (.floatingPointUnavailable p) →
    p = s.pc ∧ s.msrFp = false)

/-- R112: Alignment is raised only at a misaligned address with a cache-inhibited byte when the configuration does
not say `perform`; under `fault` it is always raised there; it carries the address and the pc. -/
def Obligations.AlignmentRule : Prop :=
  (∀ (i : Instr) (s : State) (p a : Addr), exec i s = .fault (.alignment p a) →
    p = s.pc ∧ a = s.addrOfInstr i ∧ a.toNat % 4 ≠ 0 ∧
      (∃ k < 4, cacheInhibited s.cfg (a.toNat + k) = true) ∧ s.cfg.ciMisalign ≠ .perform) ∧
  (∀ (i : Instr) (s : State), i.wf = true → s.pc.toNat + 4 < 2 ^ 32 → s.msrFp = true →
    s.StoreAdmitted (s.addrOfInstr i) → (s.addrOfInstr i).toNat % 4 ≠ 0 →
    (∃ k < 4, cacheInhibited s.cfg ((s.addrOfInstr i).toNat + k) = true) → s.cfg.ciMisalign = .fault →
    exec i s = .fault (.alignment s.pc (s.addrOfInstr i)))

/-- R34: a store at a multiple of 4, or to bytes none of which is cache-inhibited, or under `perform`, is performed
at any address; a misaligned store with a cache-inhibited byte is performed or raises Alignment under `may`, and raises
it under
`fault`. -/
def Obligations.MisalignedStoresTolerated : Prop :=
  ∀ (i : Instr) (s : State), i.wf = true → s.mem.wf = true → s.pc.toNat + 4 < 2 ^ 32 → s.msrFp = true →
    s.StoreAdmitted (s.addrOfInstr i) →
    ((s.addrOfInstr i).toNat % 4 = 0 ∨ (∀ k < 4, cacheInhibited s.cfg ((s.addrOfInstr i).toNat + k) = false) ∨
        s.cfg.ciMisalign = .perform →
      ∃ t, exec i s = .next t ∧ StoreEffect s t i.source (s.addrOfInstr i)) ∧
    (s.cfg.ciMisalign = .may →
      (∃ t, exec i s = .next t ∧ StoreEffect s t i.source (s.addrOfInstr i)) ∨
      exec i s = .fault (.alignment s.pc (s.addrOfInstr i))) ∧
    (s.cfg.ciMisalign = .fault → (s.addrOfInstr i).toNat % 4 ≠ 0 →
      (∃ k < 4, cacheInhibited s.cfg ((s.addrOfInstr i).toNat + k) = true) →
      exec i s = .fault (.alignment s.pc (s.addrOfInstr i)))

/-- R36, R37: a store that would run past `2^32 - 1`, or with a byte outside `cfg.memAdmit`, has no step: it is
neither wrapped nor a no-op. That the spec's "no step (stuck)" is the fault `stuckAccess` is the model's choice (log
entry 10). -/
def Obligations.UnadmittedStoreIsStuck : Prop :=
  ∀ (i : Instr) (s : State), i.wf = true → s.pc.toNat + 4 < 2 ^ 32 → s.msrFp = true →
    (2 ^ 32 - 4 < (s.addrOfInstr i).toNat ∨ (∃ k < 4, memAdmit s.cfg ((s.addrOfInstr i).toNat + k) = false)) →
    exec i s = .fault (.stuckAccess (s.addrOfInstr i))

/-- R43: an admitted store with any of its four bytes inside the program text is refused. -/
def Obligations.StoreToProgramTextRefused : Prop :=
  ∀ (i : Instr) (s : State) (k : Nat), i.wf = true → s.pc.toNat + 4 < 2 ^ 32 → s.msrFp = true →
    s.admits (s.addrOfInstr i) = true → k < 4 →
    s.text.base.toNat ≤ (s.addrOfInstr i).toNat + k →
    (s.addrOfInstr i).toNat + k < s.text.base.toNat + 4 * s.text.len →
    exec i s = .refused .storeToProgramText

/-- R77: an instruction that completes sets the pc 4 further, without wrapping; when `pc + 4` would reach 2^32 it is
refused. -/
def Obligations.PcAdvancesByFour : Prop :=
  (∀ (i : Instr) (s t : State), exec i s = .next t → t.pc.toNat = s.pc.toNat + 4) ∧
  (∀ (i : Instr) (s : State), i.wf = true → 2 ^ 32 ≤ s.pc.toNat + 4 → exec i s = .refused .pcOverflow)

/-- R114: the order in which the conditions are reported, for every instruction and state. That the unadmitted access,
the spec's "no step (stuck)", is the fault `stuckAccess` is the model's choice (log entry 10). -/
def Obligations.OutcomesInPriorityOrder : Prop :=
  (∀ (s : State) (w : Word), s.ended = false → s.fetch = some w →
    (decodeWord w = .notInSpec → step s = .refused .notInSpec) ∧
    (decodeWord w = .invalidForm → step s = .refused .invalidForm)) ∧
  ∀ (i : Instr) (s : State),
    (i.wf = false → exec i s = .refused .invalidForm) ∧
    (i.wf = true →
      (2 ^ 32 ≤ s.pc.toNat + 4 → exec i s = .refused .pcOverflow) ∧
      (s.pc.toNat + 4 < 2 ^ 32 →
        (s.msrFp = false → exec i s = .fault (.floatingPointUnavailable s.pc)) ∧
        (s.msrFp = true →
          (s.admits (s.addrOfInstr i) = false → exec i s = .fault (.stuckAccess (s.addrOfInstr i))) ∧
          (s.admits (s.addrOfInstr i) = true →
            (s.hitsText (s.addrOfInstr i) = true → exec i s = .refused .storeToProgramText) ∧
            (s.hitsText (s.addrOfInstr i) = false →
              (s.alignmentFaults (s.addrOfInstr i) = true →
                exec i s = .fault (.alignment s.pc (s.addrOfInstr i))) ∧
              (s.alignmentFaults (s.addrOfInstr i) = false → ∃ t, exec i s = .next t))))))

/-- R110: the family raises FloatingPointUnavailable and Alignment and no other exception (a stuck access is none),
and it can raise each of the two. -/
def Obligations.ExactlyTwoExceptions : Prop :=
  (∀ (i : Instr) (s : State) (f : Fault), exec i s = .fault f →
    f = .floatingPointUnavailable s.pc ∨ f = .alignment s.pc (s.addrOfInstr i) ∨
      f = .stuckAccess (s.addrOfInstr i)) ∧
  (∃ i s, exec i s = .fault (.floatingPointUnavailable s.pc)) ∧
  (∃ i s, exec i s = .fault (.alignment s.pc (s.addrOfInstr i)))

/-! Reservations. -/

/-- R42: a completed store clears, for every agent, exactly the reservation on a granule one of the four stored bytes
lies in; the others stay, none is created; the granule size is a power of two and at least 4. -/
def Obligations.StoreClearsTouchedReservations : Prop :=
  (∀ c : Config, granuleSize c = 2 ^ (c.granuleExp + 2) ∧ 4 ≤ granuleSize c) ∧
  ∀ (i : Instr) (s t : State), exec i s = .next t →
    t.reservations.length = s.reservations.length ∧
    ∀ n : Nat,
      (s.reservations[n]? = some none → t.reservations[n]? = some none) ∧
      ∀ g : Nat, s.reservations[n]? = some (some g) →
        ((∃ k < 4, ((s.addrOfInstr i).toNat + k) / granuleSize s.cfg = g) → t.reservations[n]? = some none) ∧
        ((∀ k < 4, ((s.addrOfInstr i).toNat + k) / granuleSize s.cfg ≠ g) →
          t.reservations[n]? = some (some g))

/-! FPSCR. -/

/-- R102: what the raised flags do to FPSCR under the three policies. -/
def Obligations.FpscrUpdateByPolicy : Prop :=
  ∀ (f : Fpscr) (p : FpscrPolicy) (flags : List NarrowFlag) (k : Nat),
    (flags = [] → f.update p flags k = f) ∧
    (p = .unchanged → f.update p flags k = f) ∧
    (p = .ieeeFlags → ∀ b, (f.update p flags k).flag b = (f.flag b || decide (b ∈ flags))) ∧
    (p = .maySet → ∀ b,
      (b ∈ flags → (f.update p flags k).flag b = f.flag b ∨ (f.update p flags k).flag b = true) ∧
      (b ∉ flags → (f.update p flags k).flag b = f.flag b)) ∧
    Fpscr.SameControls (f.update p flags k) f

/-- R119, R14: no instruction changes `MSR.FP`, `FPSCR.RN`, `FPSCR.NI` or an enable bit, and none clears one of the
four flags. -/
def Obligations.ControlsKeptFlagsSticky : Prop :=
  ∀ s t : State, step s = .next t →
    t.msrFp = s.msrFp ∧ t.fpscr.rn = s.fpscr.rn ∧ t.fpscr.ni = s.fpscr.ni ∧
    t.fpscr.ve = s.fpscr.ve ∧ t.fpscr.oe = s.fpscr.oe ∧ t.fpscr.ue = s.fpscr.ue ∧ t.fpscr.ze = s.fpscr.ze ∧
    t.fpscr.xe = s.fpscr.xe ∧ ∀ b, s.fpscr.flag b = true → t.fpscr.flag b = true

/-- R104: neither a raised flag nor an enable bit decides whether a store is performed, what it writes to a general
register or where the pc goes: in two states that agree on the general registers, the pc, `MSR.FP`, the text, the
configuration and the draw, and differ as they may in FPSCR and in the double that raises the flags, the outcome is of
the same kind and these agree. -/
def Obligations.FlagsNeverStopStore : Prop :=
  ∀ (i : Instr) (s s' : State), s'.gpr = s.gpr → s'.pc = s.pc → s'.msrFp = s.msrFp → s'.text = s.text →
    s'.cfg = s.cfg → s'.draws = s.draws →
    (∀ t, exec i s = .next t → ∃ t', exec i s' = .next t' ∧ t'.gpr = t.gpr ∧ t'.pc = t.pc) ∧
    (∀ e, exec i s = .fault e → exec i s' = .fault e) ∧
    (∀ r, exec i s = .refused r → exec i s' = .refused r)

/-- R14, D26 (the layout is general knowledge the spec adopts, G2): FPSCR as a record and as a word are the same
data, with every field at the position R14 gives (position 0 the most significant bit, `FPRF` 15 to 19, `RN` 30 and
31). -/
def Obligations.FpscrWordLayout : Prop :=
  (∀ f : Fpscr, Fpscr.ofWord f.toWord = f) ∧ (∀ w : Word, (Fpscr.ofWord w).toWord = w) ∧
  ∀ f : Fpscr,
    f.toWord.getMsbD 0 = f.fx ∧ f.toWord.getMsbD 1 = f.fex ∧ f.toWord.getMsbD 2 = f.vx ∧
    f.toWord.getMsbD 3 = f.ox ∧ f.toWord.getMsbD 4 = f.ux ∧ f.toWord.getMsbD 5 = f.zx ∧
    f.toWord.getMsbD 6 = f.xx ∧ f.toWord.getMsbD 7 = f.vxsnan ∧ f.toWord.getMsbD 8 = f.vxisi ∧
    f.toWord.getMsbD 9 = f.vxidi ∧ f.toWord.getMsbD 10 = f.vxzdz ∧ f.toWord.getMsbD 11 = f.vximz ∧
    f.toWord.getMsbD 12 = f.vxvc ∧ f.toWord.getMsbD 13 = f.fr ∧ f.toWord.getMsbD 14 = f.fi ∧
    f.toWord.extractLsb' 12 5 = f.fprf ∧ f.toWord.getMsbD 20 = f.reserved20 ∧
    f.toWord.getMsbD 21 = f.vxsoft ∧ f.toWord.getMsbD 22 = f.vxsqrt ∧ f.toWord.getMsbD 23 = f.vxcvi ∧
    f.toWord.getMsbD 24 = f.ve ∧ f.toWord.getMsbD 25 = f.oe ∧ f.toWord.getMsbD 26 = f.ue ∧
    f.toWord.getMsbD 27 = f.ze ∧ f.toWord.getMsbD 28 = f.xe ∧ f.toWord.getMsbD 29 = f.ni ∧
    f.toWord.extractLsb' 0 2 = f.rn

/-! The conversion. -/

/-- R92: in the common core every conversion stores the word R92 gives and raises no flag, FPSCR stays as it was
under every policy, and the whole instruction is the same under every setting of `cfg.sfd` and
`cfg.fpscrPolicy`. -/
def Obligations.CommonCore : Prop :=
  (∀ (c : SfdInstance) (x : DWord) (rn : BitVec 2) (ni : Bool) (k : Nat),
    (dIsZero x = true → singleFromDouble c x rn ni k = dSign x ++ 0#31 ∧ narrowingFlags x rn ni k = []) ∧
    (dIsInf x = true →
      singleFromDouble c x rn ni k = dSign x ++ 0xFF#8 ++ 0#23 ∧ narrowingFlags x rn ni k = []) ∧
    (897 ≤ dExp x ∧ dExp x ≤ 1150 ∧ x.extractLsb' 0 29 = 0 →
      singleFromDouble c x rn ni k = dSign x ++ BitVec.ofNat 8 (dExp x - 896) ++ x.extractLsb' 29 23 ∧
      singleFromDouble c x rn ni k = x.extractLsb' 62 2 ++ x.extractLsb' 29 30 ∧
      narrowingFlags x rn ni k = []) ∧
    (dIsQuietNan x = true →
      singleFromDouble c x rn ni k = dSign x ++ 0xFF#8 ++ x.extractLsb' 29 23 ∧ narrowingFlags x rn ni k = [])) ∧
  (∀ (f : Fpscr) (p : FpscrPolicy) (x : DWord) (rn : BitVec 2) (ni : Bool) (k : Nat),
    (sfdExact x).isSome = true → f.update p (narrowingFlags x rn ni k) k = f) ∧
  (∀ (i : Instr) (s : State) (c : SfdInstance) (p : FpscrPolicy), s.SourceExact i.source →
    exec i (s.withCfg ((s.cfg.setSfd c).setPolicy p)) =
      mapNext (fun t => t.withCfg ((t.cfg.setSfd c).setPolicy p)) (exec i s))

/-- R93, R94, R95, R96, R97: `SFD_rn` is narrowing over exact rationals: the word of the rounded magnitude, an
overflow word above `MAXF`, a zero where it is flushed; infinities, zeros and NaNs as the rules say; with the flags that
R95, R96 and R97 name. -/
def Obligations.SfdRnIsExactNarrowing : Prop :=
  ∀ (x : DWord) (rn : BitVec 2) (ni : Bool) (k : Nat),
    (dIsNan x = true →
      sfdRn x rn ni = dSign x ++ 0xFF#8 ++ 1#1 ++ x.extractLsb' 29 22 ∧
      ∀ b, b ∈ narrowingFlags x rn ni k ↔ dIsSignallingNan x = true ∧ b = .vxsnan) ∧
    (dIsInf x = true → sfdRn x rn ni = dSign x ++ 0xFF#8 ++ 0#23) ∧
    (dIsZero x = true → sfdRn x rn ni = dSign x ++ 0#31) ∧
    (Narrowing.Finite x →
      (Narrowing.maxF < Narrowing.rounded x rn ↔ (2 : ℚ) ^ 128 ≤ Narrowing.rounded x rn) ∧
      (Narrowing.maxF < Narrowing.rounded x rn →
        sfdRn x rn ni =
          (if rn = 0 ∨ (rn = 2 ∧ dSign x = 0) ∨ (rn = 3 ∧ dSign x = 1) then dSign x ++ 0xFF#8 ++ 0#23
          else dSign x ++ 0x7F7FFFFF#31) ∧
        ∀ b, b ∈ narrowingFlags x rn ni k ↔ b = .ox ∨ b = .xx) ∧
      (Narrowing.rounded x rn ≤ Narrowing.maxF → Narrowing.Flushed x rn ni →
        sfdRn x rn ni = dSign x ++ 0#31 ∧ ∀ b, b ∈ narrowingFlags x rn ni k → b = .ux ∨ b = .xx) ∧
      (Narrowing.rounded x rn ≤ Narrowing.maxF → ¬ Narrowing.Flushed x rn ni →
        (∃ m < 0x7F800000, Narrowing.singleMagnitude m = Narrowing.rounded x rn ∧
          sfdRn x rn ni = dSign x ++ BitVec.ofNat 31 m) ∧
        (NarrowFlag.ux ∈ narrowingFlags x rn ni k ↔
          Narrowing.magnitude x < Narrowing.minN ∧ Narrowing.rounded x rn ≠ Narrowing.magnitude x) ∧
        (Narrowing.rounded x rn = Narrowing.magnitude x → narrowingFlags x rn ni k = [])))

/-- R93, its closing remark, with R96 beside it: below overflow the word depends on `rn` only when `rem` is not 0 (an
exact `2^128` overflows to a word that depends on `rn`, R96), and it depends on `ni` only when the rounded magnitude
lies strictly between 0 and `MINN`. -/
def Obligations.SfdRnDependsOnModesOnlyWhereItMust : Prop :=
  ∀ (x : DWord) (rn rn' : BitVec 2) (ni ni' : Bool), Narrowing.Finite x →
    (Narrowing.rounded x rn ≤ Narrowing.maxF → Narrowing.remainder (Narrowing.magnitude x) = 0 →
      sfdRn x rn' ni = sfdRn x rn ni) ∧
    (¬ (0 < Narrowing.rounded x rn ∧ Narrowing.rounded x rn < Narrowing.minN) → sfdRn x rn ni' = sfdRn x rn ni)

/-- R98: the flags of the conversion, over exact rationals; on a flush any subset of `UX` and `XX`. -/
def Obligations.NarrowingFlagsTable : Prop :=
  ∀ (x : DWord) (rn : BitVec 2) (ni : Bool) (k : Nat) (b : NarrowFlag),
    (dIsSignallingNan x = true → (b ∈ narrowingFlags x rn ni k ↔ b = .vxsnan)) ∧
    (dIsQuietNan x = true ∨ dIsInf x = true ∨ dIsZero x = true → b ∉ narrowingFlags x rn ni k) ∧
    (Narrowing.Finite x →
      (Narrowing.maxF < Narrowing.rounded x rn →
        (b ∈ narrowingFlags x rn ni k ↔ b = .ox ∨ b = .xx)) ∧
      (Narrowing.Flushed x rn ni → b ∈ narrowingFlags x rn ni k → b = .ux ∨ b = .xx) ∧
      (Narrowing.rounded x rn ≤ Narrowing.maxF → ¬ Narrowing.Flushed x rn ni →
        (Narrowing.rounded x rn = Narrowing.magnitude x → b ∉ narrowingFlags x rn ni k) ∧
        (Narrowing.rounded x rn ≠ Narrowing.magnitude x → Narrowing.minN ≤ Narrowing.magnitude x →
          (b ∈ narrowingFlags x rn ni k ↔ b = .xx)) ∧
        (Narrowing.rounded x rn ≠ Narrowing.magnitude x → Narrowing.magnitude x < Narrowing.minN →
          (b ∈ narrowingFlags x rn ni k ↔ b = .xx ∨ b = .ux))))

/-- R96: the machine's overflow test holds exactly when the exact rounded magnitude is at least 2^128, which is when
it exceeds `MAXF`; and `OX` is raised exactly then. -/
def Obligations.OverflowExactlyFromTwoTo128 : Prop :=
  ∀ (x : DWord) (rn : BitVec 2), Narrowing.Finite x →
    (infMag ≤ roundedMag x rn ↔ (2 : ℚ) ^ 128 ≤ Narrowing.rounded x rn) ∧
    (Narrowing.maxF < Narrowing.rounded x rn ↔ (2 : ℚ) ^ 128 ≤ Narrowing.rounded x rn) ∧
    ∀ (ni : Bool) (k : Nat),
      NarrowFlag.ox ∈ narrowingFlags x rn ni k ↔ (2 : ℚ) ^ 128 ≤ Narrowing.rounded x rn

/-- R100: `SFD_rne` is `SFD_rn` to nearest with gradual underflow, whatever `RN` and `NI` hold, and agrees with
`SFD_rn` for `rn = 00` unless a subnormal result is flushed. -/
def Obligations.SfdRneIgnoresFpscr : Prop :=
  ∀ (x : DWord) (rn : BitVec 2) (ni : Bool) (k : Nat),
    singleFromDouble .rne x rn ni k = sfdRn x 0 false ∧
    (flushes ni (roundedMag x 0) = false →
      singleFromDouble .rne x 0 ni k = singleFromDouble .rn x 0 ni k)

/-- R101: `SFD_arch` ignores `rn` and `ni`, selects bits, denormalises by truncation, and equals `SFD_rn` toward
zero wherever it is defined and the exponent is at most 1150. -/
def Obligations.SfdArchSelectsBits : Prop :=
  ∀ (x : DWord) (rn : BitVec 2) (ni : Bool) (k : Nat),
    (∀ (rn' : BitVec 2) (ni' : Bool),
      singleFromDouble .arch x rn' ni' k = singleFromDouble .arch x rn ni k) ∧
    (896 < dExp x ∨ x.extractLsb' 0 63 = 0 →
      singleFromDouble .arch x rn ni k = x.extractLsb' 62 2 ++ x.extractLsb' 29 30) ∧
    (874 ≤ dExp x → dExp x ≤ 896 →
      singleFromDouble .arch x rn ni k = dSign x ++ 0#8 ++
        (BitVec.ofNat 52 ((2 ^ 52 + dFrac x) >>> (897 - dExp x))).extractLsb' 29 23) ∧
    (dExp x ≤ 1150 → archUndefined x = false → singleFromDouble .arch x rn ni k = sfdRn x 1 false)

/-- R90: the choice of `cfg.sfd` decides the four stored bytes and nothing else: flags, registers, reservations and
the pc are the same under every instance. -/
def Obligations.ConversionDecidesOnlyStoredBytes : Prop :=
  ∀ (i : Instr) (s t : State) (c : SfdInstance), exec i s = .next t →
    ∃ t', exec i (s.withCfg (s.cfg.setSfd c)) = .next t' ∧
      t'.gpr = t.gpr ∧ t'.fpr = t.fpr ∧ t'.pc = t.pc ∧ t'.msrFp = t.msrFp ∧ t'.fpscr = t.fpscr ∧
      t'.reservations = t.reservations ∧ t'.text = t.text ∧
      (s.mem.wf = true →
        ∀ b, b < (s.addrOfInstr i).toNat ∨ (s.addrOfInstr i).toNat + 3 < b → t'.mem.read b = t.mem.read b)

/-- R76, R131 `EA_fits32`: with a sum below 2^32 the whole instruction is the same under both settings of
`cfg.updateWriteback`. -/
def Obligations.WriteBackSettingIrrelevantWhenSumFits : Prop :=
  ∀ (i : Instr) (s : State) (wb : UpdateWriteback), EaFits32 (s.sumOf i) →
    exec i (s.withCfg (s.cfg.setWriteback wb)) =
      mapNext (fun t => t.withCfg (t.cfg.setWriteback wb)) (exec i s)

/-! Whole-machine rules. -/

/-- R12, R131 `TextInRange`, R135, R137: every step keeps memory canonical, the text in range and the pc a multiple
of 4 within `[base, base + 4n]`. -/
def Obligations.StepKeepsInvariant : Prop :=
  ∀ s t : State, s.Inv → step s = .next t → t.Inv

/-- The invariant holds at the launch state (the model's choice, log entries 13 to 16). -/
def Obligations.InvariantAtReset : Prop := State.reset.Inv

/-- R137: from a state of a run, the pc is never outside the text and never at the top of its range. That a step outside
the text would be the refusal `pcOutsideText` is the model's choice (log entry 12). -/
def Obligations.PcStaysInText : Prop :=
  ∀ s : State, s.Inv → step s ≠ .refused .pcOutsideText ∧ step s ≠ .refused .pcOverflow

/-- R43: no step changes the program text: its place and every byte of it stay. That the text lies in memory is the
model's choice (log entry 11). -/
def Obligations.ProgramTextNeverWritten : Prop :=
  ∀ s t : State, s.mem.wf = true → step s = .next t →
    t.text = s.text ∧ ∀ b, s.text.base.toNat ≤ b → b < s.text.base.toNat + 4 * s.text.len →
      t.mem.read b = s.mem.read b

/-- R131, R137: in a run whose text is well formed and whose floating-point unit is enabled, a step goes on under
the same premises, or the run has ended, or the store was not admitted (stuck), or went to the program text, or
raised Alignment; where the store is admitted and no misaligned store to cache-inhibited storage, it goes on. That the
ended run's step is the refusal `runEnded` (log entry 12) and the spec's "no step (stuck)" the fault `stuckAccess` (log
entry 10) is the model's choice. -/
def Obligations.PremisedRunGoesOn : Prop :=
  ∀ s : State, s.Inv → s.TextWellFormed → s.FpEnabled →
    (step s = .refused .runEnded ∧ s.pc.toNat = s.text.limit) ∨
    ∃ i : Instr, s.fetch = some (encode i) ∧ i.wf = true ∧
      ((∃ t, step s = .next t ∧ t.Inv ∧ t.TextWellFormed ∧ t.FpEnabled) ∨
        step s = .fault (.stuckAccess (s.addrOfInstr i)) ∨ step s = .refused .storeToProgramText ∨
        step s = .fault (.alignment s.pc (s.addrOfInstr i))) ∧
      (s.StoreAdmitted (s.addrOfInstr i) → s.NoCiMisalign (s.addrOfInstr i) → ∃ t, step s = .next t)

/-- R5: no instruction and no step changes the configuration, and each completed one moves on to the next draw (the
model's own field, log entry 4). -/
def Obligations.ConfigurationFixed : Prop :=
  (∀ (i : Instr) (s t : State), exec i s = .next t → t.cfg = s.cfg ∧ t.draws = s.draws + 1) ∧
  ∀ s t : State, step s = .next t → t.cfg = s.cfg ∧ t.draws = s.draws + 1

/-- The launch state (the model's choice; the spec states no reset value, R20; log entries 13 to 16): registers,
FPSCR and memory zero, the unit enabled, one agent with no reservation, no program text, the spec's defaults. -/
def Obligations.LaunchState : Prop :=
  (∀ r, State.reset.readGpr r = 0 ∧ State.reset.readFpr r = 0) ∧ State.reset.pc = 0x00010000 ∧
  State.reset.msrFp = true ∧ State.reset.fpscr.toWord = 0 ∧ State.reset.reservations = [none] ∧
  (∀ b, State.reset.mem.read b = 0) ∧ State.reset.text.len = 0 ∧ State.reset.cfg.sfd = .rn ∧
  State.reset.cfg.fpscrPolicy = .maySet ∧ State.reset.cfg.updateWriteback = .ea32Zext ∧
  State.reset.cfg.ciMisalign = .may
end

