-- ==== Sys2Proof/Laws/State.lean ====
section
/-! SUPPORT. One lemma per field per update of State, so that no proof unfolds a record update; and the laws of the
general registers. -/

namespace Sys2Proof.Machine

/-! `writeGpr`. -/

@[simp] theorem State.writeGpr_gpr (s : State) (i : RegNum) (v : DWord) : (s.writeGpr i v).gpr = s.gpr.set i.toNat v := rfl
@[simp] theorem State.writeGpr_fpr (s : State) (i : RegNum) (v : DWord) : (s.writeGpr i v).fpr = s.fpr := rfl
@[simp] theorem State.writeGpr_pc (s : State) (i : RegNum) (v : DWord) : (s.writeGpr i v).pc = s.pc := rfl
@[simp] theorem State.writeGpr_msrFp (s : State) (i : RegNum) (v : DWord) : (s.writeGpr i v).msrFp = s.msrFp := rfl
@[simp] theorem State.writeGpr_fpscr (s : State) (i : RegNum) (v : DWord) : (s.writeGpr i v).fpscr = s.fpscr := rfl
@[simp] theorem State.writeGpr_reservations (s : State) (i : RegNum) (v : DWord) : (s.writeGpr i v).reservations = s.reservations := rfl
@[simp] theorem State.writeGpr_mem (s : State) (i : RegNum) (v : DWord) : (s.writeGpr i v).mem = s.mem := rfl
@[simp] theorem State.writeGpr_text (s : State) (i : RegNum) (v : DWord) : (s.writeGpr i v).text = s.text := rfl
@[simp] theorem State.writeGpr_cfg (s : State) (i : RegNum) (v : DWord) : (s.writeGpr i v).cfg = s.cfg := rfl
@[simp] theorem State.writeGpr_draws (s : State) (i : RegNum) (v : DWord) : (s.writeGpr i v).draws = s.draws := rfl

/-! `advancePc`. -/

@[simp] theorem State.advancePc_gpr (s : State) : s.advancePc.gpr = s.gpr := rfl
@[simp] theorem State.advancePc_fpr (s : State) : s.advancePc.fpr = s.fpr := rfl
@[simp] theorem State.advancePc_pc (s : State) : s.advancePc.pc = s.pc + 4 := rfl
@[simp] theorem State.advancePc_msrFp (s : State) : s.advancePc.msrFp = s.msrFp := rfl
@[simp] theorem State.advancePc_fpscr (s : State) : s.advancePc.fpscr = s.fpscr := rfl
@[simp] theorem State.advancePc_reservations (s : State) : s.advancePc.reservations = s.reservations := rfl
@[simp] theorem State.advancePc_mem (s : State) : s.advancePc.mem = s.mem := rfl
@[simp] theorem State.advancePc_text (s : State) : s.advancePc.text = s.text := rfl
@[simp] theorem State.advancePc_cfg (s : State) : s.advancePc.cfg = s.cfg := rfl
@[simp] theorem State.advancePc_draws (s : State) : s.advancePc.draws = s.draws := rfl

/-! `advanceDraws`. -/

@[simp] theorem State.advanceDraws_gpr (s : State) : s.advanceDraws.gpr = s.gpr := rfl
@[simp] theorem State.advanceDraws_fpr (s : State) : s.advanceDraws.fpr = s.fpr := rfl
@[simp] theorem State.advanceDraws_pc (s : State) : s.advanceDraws.pc = s.pc := rfl
@[simp] theorem State.advanceDraws_msrFp (s : State) : s.advanceDraws.msrFp = s.msrFp := rfl
@[simp] theorem State.advanceDraws_fpscr (s : State) : s.advanceDraws.fpscr = s.fpscr := rfl
@[simp] theorem State.advanceDraws_reservations (s : State) : s.advanceDraws.reservations = s.reservations := rfl
@[simp] theorem State.advanceDraws_mem (s : State) : s.advanceDraws.mem = s.mem := rfl
@[simp] theorem State.advanceDraws_text (s : State) : s.advanceDraws.text = s.text := rfl
@[simp] theorem State.advanceDraws_cfg (s : State) : s.advanceDraws.cfg = s.cfg := rfl
@[simp] theorem State.advanceDraws_draws (s : State) : s.advanceDraws.draws = s.draws + 1 := rfl

/-! `writeMem`. -/

@[simp] theorem State.writeMem_gpr (s : State) (a : Addr) (w : Word) : (s.writeMem a w).gpr = s.gpr := rfl
@[simp] theorem State.writeMem_fpr (s : State) (a : Addr) (w : Word) : (s.writeMem a w).fpr = s.fpr := rfl
@[simp] theorem State.writeMem_pc (s : State) (a : Addr) (w : Word) : (s.writeMem a w).pc = s.pc := rfl
@[simp] theorem State.writeMem_msrFp (s : State) (a : Addr) (w : Word) : (s.writeMem a w).msrFp = s.msrFp := rfl
@[simp] theorem State.writeMem_fpscr (s : State) (a : Addr) (w : Word) : (s.writeMem a w).fpscr = s.fpscr := rfl
@[simp] theorem State.writeMem_reservations (s : State) (a : Addr) (w : Word) : (s.writeMem a w).reservations = s.reservations := rfl
@[simp] theorem State.writeMem_mem (s : State) (a : Addr) (w : Word) : (s.writeMem a w).mem = s.mem.writeWord a.toNat w := rfl
@[simp] theorem State.writeMem_text (s : State) (a : Addr) (w : Word) : (s.writeMem a w).text = s.text := rfl
@[simp] theorem State.writeMem_cfg (s : State) (a : Addr) (w : Word) : (s.writeMem a w).cfg = s.cfg := rfl
@[simp] theorem State.writeMem_draws (s : State) (a : Addr) (w : Word) : (s.writeMem a w).draws = s.draws := rfl

/-! `invalidateReservations`. -/

@[simp] theorem State.invalidateReservations_gpr (s : State) (a : Addr) : (s.invalidateReservations a).gpr = s.gpr := rfl
@[simp] theorem State.invalidateReservations_fpr (s : State) (a : Addr) : (s.invalidateReservations a).fpr = s.fpr := rfl
@[simp] theorem State.invalidateReservations_pc (s : State) (a : Addr) : (s.invalidateReservations a).pc = s.pc := rfl
@[simp] theorem State.invalidateReservations_msrFp (s : State) (a : Addr) : (s.invalidateReservations a).msrFp = s.msrFp := rfl
@[simp] theorem State.invalidateReservations_fpscr (s : State) (a : Addr) : (s.invalidateReservations a).fpscr = s.fpscr := rfl
@[simp] theorem State.invalidateReservations_reservations (s : State) (a : Addr) : (s.invalidateReservations a).reservations = s.reservations.map (keepReservation s.cfg a) := rfl
@[simp] theorem State.invalidateReservations_mem (s : State) (a : Addr) : (s.invalidateReservations a).mem = s.mem := rfl
@[simp] theorem State.invalidateReservations_text (s : State) (a : Addr) : (s.invalidateReservations a).text = s.text := rfl
@[simp] theorem State.invalidateReservations_cfg (s : State) (a : Addr) : (s.invalidateReservations a).cfg = s.cfg := rfl
@[simp] theorem State.invalidateReservations_draws (s : State) (a : Addr) : (s.invalidateReservations a).draws = s.draws := rfl

/-! `updateFpscr`. -/

@[simp] theorem State.updateFpscr_gpr (s : State) (l : List NarrowFlag) : (s.updateFpscr l).gpr = s.gpr := rfl
@[simp] theorem State.updateFpscr_fpr (s : State) (l : List NarrowFlag) : (s.updateFpscr l).fpr = s.fpr := rfl
@[simp] theorem State.updateFpscr_pc (s : State) (l : List NarrowFlag) : (s.updateFpscr l).pc = s.pc := rfl
@[simp] theorem State.updateFpscr_msrFp (s : State) (l : List NarrowFlag) : (s.updateFpscr l).msrFp = s.msrFp := rfl
@[simp] theorem State.updateFpscr_fpscr (s : State) (l : List NarrowFlag) : (s.updateFpscr l).fpscr = s.fpscr.update s.cfg.fpscrPolicy l s.draws := rfl
@[simp] theorem State.updateFpscr_reservations (s : State) (l : List NarrowFlag) : (s.updateFpscr l).reservations = s.reservations := rfl
@[simp] theorem State.updateFpscr_mem (s : State) (l : List NarrowFlag) : (s.updateFpscr l).mem = s.mem := rfl
@[simp] theorem State.updateFpscr_text (s : State) (l : List NarrowFlag) : (s.updateFpscr l).text = s.text := rfl
@[simp] theorem State.updateFpscr_cfg (s : State) (l : List NarrowFlag) : (s.updateFpscr l).cfg = s.cfg := rfl
@[simp] theorem State.updateFpscr_draws (s : State) (l : List NarrowFlag) : (s.updateFpscr l).draws = s.draws := rfl

/-! `writeBack`. -/

@[simp] theorem State.writeBack_fpr (s : State) (u : Option RegNum) (sum : DWord) :
    (s.writeBack u sum).fpr = s.fpr := by cases u <;> rfl
@[simp] theorem State.writeBack_pc (s : State) (u : Option RegNum) (sum : DWord) :
    (s.writeBack u sum).pc = s.pc := by cases u <;> rfl
@[simp] theorem State.writeBack_msrFp (s : State) (u : Option RegNum) (sum : DWord) :
    (s.writeBack u sum).msrFp = s.msrFp := by cases u <;> rfl
@[simp] theorem State.writeBack_fpscr (s : State) (u : Option RegNum) (sum : DWord) :
    (s.writeBack u sum).fpscr = s.fpscr := by cases u <;> rfl
@[simp] theorem State.writeBack_reservations (s : State) (u : Option RegNum) (sum : DWord) :
    (s.writeBack u sum).reservations = s.reservations := by cases u <;> rfl
@[simp] theorem State.writeBack_mem (s : State) (u : Option RegNum) (sum : DWord) :
    (s.writeBack u sum).mem = s.mem := by cases u <;> rfl
@[simp] theorem State.writeBack_text (s : State) (u : Option RegNum) (sum : DWord) :
    (s.writeBack u sum).text = s.text := by cases u <;> rfl
@[simp] theorem State.writeBack_cfg (s : State) (u : Option RegNum) (sum : DWord) :
    (s.writeBack u sum).cfg = s.cfg := by cases u <;> rfl
@[simp] theorem State.writeBack_draws (s : State) (u : Option RegNum) (sum : DWord) :
    (s.writeBack u sum).draws = s.draws := by cases u <;> rfl
@[simp] theorem State.writeBack_none (s : State) (sum : DWord) : s.writeBack none sum = s := rfl
@[simp] theorem State.writeBack_some (s : State) (ra : RegNum) (sum : DWord) :
    s.writeBack (some ra) sum = s.writeGpr ra (writeBackValue s.cfg sum) := rfl

/-! `withFetchWord`. -/

@[simp] theorem State.withFetchWord_gpr (s : State) (nbits w : Nat) :
    (s.withFetchWord nbits w).gpr = s.gpr := rfl
@[simp] theorem State.withFetchWord_fpr (s : State) (nbits w : Nat) :
    (s.withFetchWord nbits w).fpr = s.fpr := rfl
@[simp] theorem State.withFetchWord_pc (s : State) (nbits w : Nat) :
    (s.withFetchWord nbits w).pc = s.pc := rfl
@[simp] theorem State.withFetchWord_msrFp (s : State) (nbits w : Nat) :
    (s.withFetchWord nbits w).msrFp = s.msrFp := rfl
@[simp] theorem State.withFetchWord_fpscr (s : State) (nbits w : Nat) :
    (s.withFetchWord nbits w).fpscr = s.fpscr := rfl
@[simp] theorem State.withFetchWord_reservations (s : State) (nbits w : Nat) :
    (s.withFetchWord nbits w).reservations = s.reservations := rfl
@[simp] theorem State.withFetchWord_mem (s : State) (nbits w : Nat) :
    (s.withFetchWord nbits w).mem = s.mem.writeWord s.pc.toNat (BitVec.ofNat 32 (w % 2 ^ nbits)) := rfl
@[simp] theorem State.withFetchWord_text (s : State) (nbits w : Nat) :
    (s.withFetchWord nbits w).text = if s.fetch.isSome then s.text else ⟨s.pc, 1⟩ := rfl
@[simp] theorem State.withFetchWord_cfg (s : State) (nbits w : Nat) :
    (s.withFetchWord nbits w).cfg = s.cfg := rfl
@[simp] theorem State.withFetchWord_draws (s : State) (nbits w : Nat) :
    (s.withFetchWord nbits w).draws = s.draws := rfl

/-! General registers (R10): a read after a write. -/

theorem State.readGpr_writeGpr_same (s : State) (i : RegNum) (v : DWord) :
    (s.writeGpr i v).readGpr i = v := by
  simp [State.readGpr]

theorem State.readGpr_writeGpr_other (s : State) {i j : RegNum} (v : DWord) (h : j ≠ i) :
    (s.writeGpr i v).readGpr j = s.readGpr j := by
  have hij : i.toNat ≠ j.toNat := fun e => h (BitVec.eq_of_toNat_eq e.symm)
  simp [State.readGpr, Vector.getElem_set_ne _ _ hij]

end Sys2Proof.Machine
end

