-- ==== Sys2Proof/Laws/Access.lean ====
section
/-! SUPPORT. The checks of a store (R34, R36, R37, R43) and the reservations it touches (R42), said over the four
bytes `a + k`. -/

namespace Sys2Proof.Machine

theorem mem_accessBytes {a : Addr} {b : Nat} : b ∈ accessBytes a ↔ ∃ k < 4, b = a.toNat + k := by
  simp only [accessBytes, List.mem_cons, List.not_mem_nil, or_false]
  constructor
  · rintro (h | h | h | h)
    · exact ⟨0, by omega, h⟩
    · exact ⟨1, by omega, h⟩
    · exact ⟨2, by omega, h⟩
    · exact ⟨3, by omega, h⟩
  · rintro ⟨k, hk, h⟩
    omega

theorem any_accessBytes {a : Addr} {p : Nat → Bool} :
    (accessBytes a).any p = true ↔ ∃ k < 4, p (a.toNat + k) = true := by
  rw [List.any_eq_true]
  constructor
  · rintro ⟨b, hb, hp⟩
    obtain ⟨k, hk, rfl⟩ := mem_accessBytes.1 hb
    exact ⟨k, hk, hp⟩
  · rintro ⟨k, hk, hp⟩
    exact ⟨_, mem_accessBytes.2 ⟨k, hk, rfl⟩, hp⟩

theorem all_accessBytes {a : Addr} {p : Nat → Bool} :
    (accessBytes a).all p = true ↔ ∀ k < 4, p (a.toNat + k) = true := by
  rw [List.all_eq_true]
  constructor
  · intro h k hk
    exact h _ (mem_accessBytes.2 ⟨k, hk, rfl⟩)
  · intro h b hb
    obtain ⟨k, hk, rfl⟩ := mem_accessBytes.1 hb
    exact h k hk

theorem misaligned_iff {a : Addr} : misaligned a = true ↔ a.toNat % 4 ≠ 0 := by
  simp [misaligned]

theorem Text.holds_iff {t : Text} {a : Nat} :
    t.holds a = true ↔ t.base.toNat ≤ a ∧ a < t.base.toNat + 4 * t.len := by
  rw [Text.holds, Bool.and_eq_true, decide_eq_true_eq, decide_eq_true_eq, Text.limit]

theorem State.admits_iff {s : State} {a : Addr} :
    s.admits a = true ↔ a.toNat ≤ 2 ^ 32 - 4 ∧ ∀ k < 4, memAdmit s.cfg (a.toNat + k) = true := by
  rw [State.admits, Bool.and_eq_true, decide_eq_true_eq, all_accessBytes]

theorem State.hitsText_iff {s : State} {a : Addr} :
    s.hitsText a = true ↔
      ∃ k < 4, s.text.base.toNat ≤ a.toNat + k ∧ a.toNat + k < s.text.base.toNat + 4 * s.text.len := by
  rw [State.hitsText, any_accessBytes]
  simp only [Text.holds_iff]

theorem State.hitsInhibited_iff {s : State} {a : Addr} :
    s.hitsInhibited a = true ↔ ∃ k < 4, cacheInhibited s.cfg (a.toNat + k) = true :=
  any_accessBytes

/-- R34: when a store raises Alignment, by the configuration and, under `may`, the draw. -/
theorem State.alignmentFaults_iff {s : State} {a : Addr} :
    s.alignmentFaults a = true ↔
      a.toNat % 4 ≠ 0 ∧ s.hitsInhibited a = true ∧
        (s.cfg.ciMisalign = .fault ∨ (s.cfg.ciMisalign = .may ∧ Config.drawCiFault s.draws = true)) := by
  rw [State.alignmentFaults, Bool.and_eq_true, Bool.and_eq_true, misaligned_iff]
  cases s.cfg.ciMisalign <;> simp [and_assoc]

/-- What an agent still holds after a store: a touched granule's reservation is lost, any other stays (R42). -/
theorem keepReservation_some (c : Config) (a : Addr) (g : Nat) :
    ((∃ k < 4, (a.toNat + k) / granuleSize c = g) → keepReservation c a (some g) = none) ∧
    ((∀ k < 4, (a.toNat + k) / granuleSize c ≠ g) → keepReservation c a (some g) = some g) := by
  have key : ((accessBytes a).any (fun b => granuleOf c b == g)) = true ↔
      ∃ k < 4, (a.toNat + k) / granuleSize c = g := by
    rw [any_accessBytes]
    simp only [granuleOf, beq_iff_eq]
  constructor
  · intro h
    show (if _ then _ else _) = _
    rw [if_pos (key.2 h)]
  · intro h
    show (if _ then _ else _) = _
    rw [if_neg]
    intro hc
    obtain ⟨k, hk, e⟩ := key.1 hc
    exact h k hk e

end Sys2Proof.Machine
end

