-- ==== Sys2Proof/Laws/Decode.lean ====
section
/-! SUPPORT. Words and their fields as numbers: the two instruction forms assembled (R51 to R53) and taken apart. -/

namespace Sys2Proof

/-- Concatenation as a number. -/
theorem toNat_append_eq {m n : Nat} (x : BitVec m) (y : BitVec n) :
    (x ++ y).toNat = x.toNat * 2 ^ n + y.toNat := by
  rw [BitVec.toNat_append, ← Nat.shiftLeft_add_eq_or_of_lt y.isLt, Nat.shiftLeft_eq]

/-- The D form as a number (R51, R53). -/
theorem dForm_toNat (op : BitVec 6) (fs ra : RegNum) (d : BitVec 16) :
    (op ++ fs ++ ra ++ d : Word).toNat =
      op.toNat * 2 ^ 26 + fs.toNat * 2 ^ 21 + ra.toNat * 2 ^ 16 + d.toNat := by
  show (op ++ fs ++ ra ++ d).toNat = _
  rw [toNat_append_eq, toNat_append_eq, toNat_append_eq]
  omega

/-- The X form as a number (R52, R53). -/
theorem xForm_toNat (op : BitVec 6) (fs ra rb : RegNum) (xo : BitVec 10) (rc : BitVec 1) :
    (op ++ fs ++ ra ++ rb ++ xo ++ rc : Word).toNat =
      op.toNat * 2 ^ 26 + fs.toNat * 2 ^ 21 + ra.toNat * 2 ^ 16 + rb.toNat * 2 ^ 11 + xo.toNat * 2 + rc.toNat := by
  show (op ++ fs ++ ra ++ rb ++ xo ++ rc).toNat = _
  rw [toNat_append_eq, toNat_append_eq, toNat_append_eq, toNat_append_eq, toNat_append_eq]
  omega

/-! The fields as numbers. -/

theorem fieldOpcd_toNat (w : Word) : (fieldOpcd w).toNat = w.toNat / 2 ^ 26 % 2 ^ 6 := by
  rw [fieldOpcd, BitVec.extractLsb'_toNat, Nat.shiftRight_eq_div_pow]

theorem fieldFs_toNat (w : Word) : (fieldFs w).toNat = w.toNat / 2 ^ 21 % 2 ^ 5 := by
  rw [fieldFs, BitVec.extractLsb'_toNat, Nat.shiftRight_eq_div_pow]

theorem fieldRa_toNat (w : Word) : (fieldRa w).toNat = w.toNat / 2 ^ 16 % 2 ^ 5 := by
  rw [fieldRa, BitVec.extractLsb'_toNat, Nat.shiftRight_eq_div_pow]

theorem fieldRb_toNat (w : Word) : (fieldRb w).toNat = w.toNat / 2 ^ 11 % 2 ^ 5 := by
  rw [fieldRb, BitVec.extractLsb'_toNat, Nat.shiftRight_eq_div_pow]

theorem fieldXo_toNat (w : Word) : (fieldXo w).toNat = w.toNat / 2 ^ 1 % 2 ^ 10 := by
  rw [fieldXo, BitVec.extractLsb'_toNat, Nat.shiftRight_eq_div_pow]

theorem fieldRc_toNat (w : Word) : (fieldRc w).toNat = w.toNat % 2 ^ 1 := by
  rw [fieldRc, BitVec.extractLsb'_toNat, Nat.shiftRight_zero]

theorem fieldD_toNat (w : Word) : (fieldD w).toNat = w.toNat % 2 ^ 16 := by
  rw [fieldD, BitVec.extractLsb'_toNat, Nat.shiftRight_zero]

/-- Every word is its D-form fields put together. -/
theorem dForm_fields (w : Word) : (fieldOpcd w ++ fieldFs w ++ fieldRa w ++ fieldD w : Word) = w := by
  apply BitVec.eq_of_toNat_eq
  rw [dForm_toNat, fieldOpcd_toNat, fieldFs_toNat, fieldRa_toNat, fieldD_toNat]
  have := w.isLt
  omega

/-- Every word is its X-form fields put together. -/
theorem xForm_fields (w : Word) :
    (fieldOpcd w ++ fieldFs w ++ fieldRa w ++ fieldRb w ++ fieldXo w ++ fieldRc w : Word) = w := by
  apply BitVec.eq_of_toNat_eq
  rw [xForm_toNat, fieldOpcd_toNat, fieldFs_toNat, fieldRa_toNat, fieldRb_toNat, fieldXo_toNat, fieldRc_toNat]
  have := w.isLt
  omega

/-- The fields of a D-form word. -/
theorem fields_dForm (op : BitVec 6) (fs ra : RegNum) (d : BitVec 16) :
    fieldOpcd (op ++ fs ++ ra ++ d : Word) = op ∧ fieldFs (op ++ fs ++ ra ++ d : Word) = fs ∧
    fieldRa (op ++ fs ++ ra ++ d : Word) = ra ∧ fieldD (op ++ fs ++ ra ++ d : Word) = d := by
  have h1 := op.isLt; have h2 := fs.isLt; have h3 := ra.isLt; have h4 := d.isLt
  refine ⟨?_, ?_, ?_, ?_⟩ <;> apply BitVec.eq_of_toNat_eq
  · rw [fieldOpcd_toNat, dForm_toNat]; omega
  · rw [fieldFs_toNat, dForm_toNat]; omega
  · rw [fieldRa_toNat, dForm_toNat]; omega
  · rw [fieldD_toNat, dForm_toNat]; omega

/-- The fields of an X-form word. -/
theorem fields_xForm (op : BitVec 6) (fs ra rb : RegNum) (xo : BitVec 10) (rc : BitVec 1) :
    fieldOpcd (op ++ fs ++ ra ++ rb ++ xo ++ rc : Word) = op ∧
    fieldFs (op ++ fs ++ ra ++ rb ++ xo ++ rc : Word) = fs ∧
    fieldRa (op ++ fs ++ ra ++ rb ++ xo ++ rc : Word) = ra ∧
    fieldRb (op ++ fs ++ ra ++ rb ++ xo ++ rc : Word) = rb ∧
    fieldXo (op ++ fs ++ ra ++ rb ++ xo ++ rc : Word) = xo ∧
    fieldRc (op ++ fs ++ ra ++ rb ++ xo ++ rc : Word) = rc := by
  have h1 := op.isLt; have h2 := fs.isLt; have h3 := ra.isLt
  have h4 := rb.isLt; have h5 := xo.isLt; have h6 := rc.isLt
  refine ⟨?_, ?_, ?_, ?_, ?_, ?_⟩ <;> apply BitVec.eq_of_toNat_eq
  · rw [fieldOpcd_toNat, xForm_toNat]; omega
  · rw [fieldFs_toNat, xForm_toNat]; omega
  · rw [fieldRa_toNat, xForm_toNat]; omega
  · rw [fieldRb_toNat, xForm_toNat]; omega
  · rw [fieldXo_toNat, xForm_toNat]; omega
  · rw [fieldRc_toNat, xForm_toNat]; omega

end Sys2Proof
end

