-- ==== Sys2Proof/Laws/Memory.lean ====
section
/-! SUPPORT. The laws of memory: canonical form is kept, a read after a write, and the 4-byte big-endian access. -/

namespace Sys2Proof.Machine

theorem Memory.wfFrom_mono {lo lo' : Nat} {m : Memory} (h : lo' ≤ lo) (hm : Memory.wfFrom lo m = true) :
    Memory.wfFrom lo' m = true := by
  cases m with
  | nil => rfl
  | cons c m =>
    obtain ⟨k, v⟩ := c
    simp only [Memory.wfFrom, Bool.and_eq_true, decide_eq_true_eq] at hm ⊢
    exact ⟨⟨⟨by omega, hm.1.1.2⟩, hm.1.2⟩, hm.2⟩

/-- Nothing is listed below the lower bound of a canonical memory. -/
theorem Memory.read_of_lt {lo a : Nat} {m : Memory} (hm : Memory.wfFrom lo m = true) (ha : a < lo) :
    Memory.read m a = 0 := by
  induction m generalizing lo with
  | nil => rfl
  | cons c m ih =>
    obtain ⟨k, v⟩ := c
    simp only [Memory.wfFrom, Bool.and_eq_true, decide_eq_true_eq] at hm
    have hk : k ≠ a := by omega
    simp [Memory.read, hk, ih hm.2 (by omega : a < k + 1)]

theorem Memory.wfFrom_write {lo a : Nat} {m : Memory} {b : Byte} (hm : Memory.wfFrom lo m = true)
    (hlo : lo ≤ a) (ha : a < 2 ^ 32) : Memory.wfFrom lo (Memory.write m a b) = true := by
  induction m generalizing lo with
  | nil =>
    simp only [Memory.write]
    split
    · rfl
    · rename_i hb
      simp only [Memory.wfFrom, Bool.and_eq_true, decide_eq_true_eq]
      exact ⟨⟨⟨hlo, ha⟩, by simpa using hb⟩, trivial⟩
  | cons c m ih =>
    obtain ⟨k, v⟩ := c
    have hm' := hm
    simp only [Memory.wfFrom, Bool.and_eq_true, decide_eq_true_eq] at hm'
    obtain ⟨⟨⟨h1, h2⟩, h3⟩, h4⟩ := hm'
    simp only [Memory.write]
    split
    · split
      · exact hm
      · rename_i hak hb
        simp only [Memory.wfFrom, Bool.and_eq_true, decide_eq_true_eq]
        exact ⟨⟨⟨hlo, ha⟩, by simpa using hb⟩, ⟨⟨by omega, h2⟩, h3⟩, h4⟩
    · split
      · rename_i hak
        subst hak
        split
        · exact Memory.wfFrom_mono (by omega) h4
        · rename_i hb
          simp only [Memory.wfFrom, Bool.and_eq_true, decide_eq_true_eq]
          exact ⟨⟨⟨h1, h2⟩, by simpa using hb⟩, h4⟩
      · simp only [Memory.wfFrom, Bool.and_eq_true, decide_eq_true_eq]
        exact ⟨⟨⟨h1, h2⟩, h3⟩, ih h4 (by omega)⟩

/-- Writing a byte keeps the canonical form. -/
theorem Memory.wf_write {m : Memory} {a : Nat} (b : Byte) (hm : m.wf = true) (ha : a < 2 ^ 32) :
    (m.write a b).wf = true :=
  Memory.wfFrom_write hm (Nat.zero_le a) ha

theorem Memory.readFrom_write_same {lo a : Nat} {m : Memory} {b : Byte} (hm : Memory.wfFrom lo m = true) :
    Memory.read (Memory.write m a b) a = b := by
  induction m generalizing lo with
  | nil =>
    simp only [Memory.write]
    split
    · rename_i hb
      rw [hb]; rfl
    · simp [Memory.read]
  | cons c m ih =>
    obtain ⟨k, v⟩ := c
    have hm' := hm
    simp only [Memory.wfFrom, Bool.and_eq_true, decide_eq_true_eq] at hm'
    simp only [Memory.write]
    split
    · split
      · rename_i hak hb
        rw [hb]
        exact Memory.read_of_lt (lo := k)
          (by simp only [Memory.wfFrom, Bool.and_eq_true, decide_eq_true_eq]
              exact ⟨⟨⟨Nat.le_refl k, hm'.1.1.2⟩, hm'.1.2⟩, hm'.2⟩) hak
      · simp [Memory.read]
    · split
      · rename_i hak
        split
        · rename_i hb
          rw [hb]
          exact Memory.read_of_lt hm'.2 (by omega)
        · simp [Memory.read]
      · rename_i h1 h2
        have hk : k ≠ a := fun e => h2 e.symm
        simp [Memory.read, hk, ih hm'.2]

/-- A read after a write to the same address gives the byte written. -/
theorem Memory.read_write_same {m : Memory} (a : Nat) (b : Byte) (hm : m.wf = true) :
    (m.write a b).read a = b :=
  Memory.readFrom_write_same hm

theorem Memory.readFrom_write_other {lo a c : Nat} {m : Memory} {b : Byte} (hm : Memory.wfFrom lo m = true)
    (h : c ≠ a) : Memory.read (Memory.write m a b) c = Memory.read m c := by
  induction m generalizing lo with
  | nil =>
    simp only [Memory.write]
    split
    · rfl
    · simp [Memory.read, h.symm]
  | cons e m ih =>
    obtain ⟨k, v⟩ := e
    have hm' := hm
    simp only [Memory.wfFrom, Bool.and_eq_true, decide_eq_true_eq] at hm'
    simp only [Memory.write]
    split
    · split
      · rfl
      · simp [Memory.read, h.symm]
    · split
      · rename_i hak
        subst hak
        split
        · simp [Memory.read, h.symm]
        · simp [Memory.read, h.symm]
      · by_cases hk : k = c <;> simp [Memory.read, hk, ih hm'.2]

/-- A write leaves every other address alone. -/
theorem Memory.read_write_other {m : Memory} {a c : Nat} (b : Byte) (hm : m.wf = true) (h : c ≠ a) :
    (m.write a b).read c = m.read c :=
  Memory.readFrom_write_other hm h

/-- `MemWrite` keeps the canonical form. -/
theorem Memory.wf_writeWord {m : Memory} {a : Nat} (w : Word) (hm : m.wf = true) (ha : a ≤ 2 ^ 32 - 4) :
    (m.writeWord a w).wf = true := by
  have h0 := Memory.wf_write (byteOfWord w 0) hm (show a < 2 ^ 32 by omega)
  have h1 := Memory.wf_write (byteOfWord w 1) h0 (show a + 1 < 2 ^ 32 by omega)
  have h2 := Memory.wf_write (byteOfWord w 2) h1 (show a + 2 < 2 ^ 32 by omega)
  exact Memory.wf_write (byteOfWord w 3) h2 (show a + 3 < 2 ^ 32 by omega)

/-- After `MemWrite(a, 4, w)` the byte at `a + k` is byte `k` of `w`, and every other byte is as before (R32). -/
theorem Memory.read_writeWord {m : Memory} {a : Nat} (w : Word) (hm : m.wf = true) (ha : a ≤ 2 ^ 32 - 4) :
    (∀ k < 4, (m.writeWord a w).read (a + k) = byteOfWord w k) ∧
      ∀ c, c < a ∨ a + 3 < c → (m.writeWord a w).read c = m.read c := by
  have h0 := Memory.wf_write (byteOfWord w 0) hm (show a < 2 ^ 32 by omega)
  have h1 := Memory.wf_write (byteOfWord w 1) h0 (show a + 1 < 2 ^ 32 by omega)
  have h2 := Memory.wf_write (byteOfWord w 2) h1 (show a + 2 < 2 ^ 32 by omega)
  constructor
  · intro k hk
    unfold Memory.writeWord
    have hcases : k = 0 ∨ k = 1 ∨ k = 2 ∨ k = 3 := by omega
    obtain rfl | rfl | rfl | rfl := hcases
    · rw [Memory.read_write_other _ h2 (by omega), Memory.read_write_other _ h1 (by omega),
        Memory.read_write_other _ h0 (by omega)]
      exact Memory.read_write_same _ _ hm
    · rw [Memory.read_write_other _ h2 (by omega), Memory.read_write_other _ h1 (by omega),
        Memory.read_write_same _ _ h0]
    · rw [Memory.read_write_other _ h2 (by omega), Memory.read_write_same _ _ h1]
    · rw [Memory.read_write_same _ _ h2]
  · intro c hc
    unfold Memory.writeWord
    rw [Memory.read_write_other _ h2 (by omega), Memory.read_write_other _ h1 (by omega),
      Memory.read_write_other _ h0 (by omega), Memory.read_write_other _ hm (by omega)]

/-- The memory right after reset is canonical. -/
theorem State.reset_mem_wf : State.reset.mem.wf = true := rfl

end Sys2Proof.Machine
end

