-- ==== Sys2Proof/Laws/Narrowing.lean ====
section
/-! SUPPORT. The bridge between the integer formulation of R99 and exact rationals: what a statement over rationals
says of the machine's `roundedMag`, `remainderBits` and `dExp`. -/

namespace Sys2Proof.Narrowing

open Sys2Proof.Machine

theorem dExp_lt (x : DWord) : dExp x < 2048 := (x.extractLsb' 52 11).isLt

theorem dFrac_lt (x : DWord) : dFrac x < 2 ^ 52 := (x.extractLsb' 0 52).isLt

/-- A finite double that is not zero has an exponent below 2047. -/
theorem Finite.dExp_lt {x : DWord} (h : Finite x) : dExp x < 2047 := by
  obtain ⟨h1, h2, -⟩ := h
  have := Narrowing.dExp_lt x
  simp only [dIsNan, dIsInf, Bool.and_eq_false_imp, beq_iff_eq, bne_eq_false_iff_eq] at h1 h2
  by_contra hc
  have he : dExp x = 2047 := by omega
  exact absurd (h1 he) (by simpa using h2 he)

/-- A finite double that is not zero has a non-zero significand. -/
theorem Finite.significand_pos {x : DWord} (h : Finite x) : 0 < significand x := by
  obtain ⟨-, -, h3⟩ := h
  unfold significand
  split
  · rename_i he
    simp only [dIsZero, Bool.and_eq_false_imp, beq_iff_eq] at h3
    have := h3 he
    simp at this
    omega
  · omega

theorem significand_lt (x : DWord) : significand x < 2 ^ 53 := by
  have := dFrac_lt x
  unfold significand
  split <;> omega

/-- The power of two of the last place of the double: `v = significand * 2 ^ lastPlace`. -/
def lastPlace (x : DWord) : ℤ := (max (dExp x) 1 : ℕ) - 1075

theorem magnitude_eq (x : DWord) : magnitude x = (significand x : ℚ) * 2 ^ lastPlace x := by
  unfold magnitude significand lastPlace
  split
  · rename_i he
    simp [he]
  · rename_i he
    have : max (dExp x) 1 = dExp x := by omega
    rw [this]
    push_cast
    ring

theorem lastPlace_add_dropped (x : DWord) :
    lastPlace x + droppedBits x = if 897 ≤ dExp x then (dExp x : ℤ) - 1046 else -149 := by
  unfold lastPlace droppedBits
  split
  · rename_i h
    have : max (dExp x) 1 = dExp x := by omega
    rw [this]; push_cast; ring
  · rename_i h
    split
    · have : max (dExp x) 1 = dExp x := by omega
      rw [this]; push_cast; omega
    · have : max (dExp x) 1 = 1 := by omega
      rw [this]; norm_num

/-- `MINN` bounds the magnitude from below exactly for `e ≥ 897` (R99). -/
theorem minN_le_magnitude_iff (x : DWord) : minN ≤ magnitude x ↔ 897 ≤ dExp x := by
  have hM := significand_lt x
  rw [magnitude_eq]
  unfold minN
  have hpos : (0 : ℚ) < 2 ^ lastPlace x := by positivity
  constructor
  · intro h
    by_contra hc
    have h1 : (significand x : ℚ) * 2 ^ lastPlace x < 2 ^ (53 : ℤ) * 2 ^ lastPlace x := by
      refine mul_lt_mul_of_pos_right ?_ hpos
      exact_mod_cast hM
    rw [← zpow_add₀ (by norm_num)] at h1
    have h2 : (2 : ℚ) ^ (53 + lastPlace x) ≤ 2 ^ (-126 : ℤ) := by
      refine zpow_le_zpow_right₀ (by norm_num) ?_
      unfold lastPlace; omega
    linarith
  · intro h
    have hs : 2 ^ 52 ≤ significand x := by
      unfold significand; split <;> omega
    have h1 : (2 : ℚ) ^ (52 : ℤ) * 2 ^ lastPlace x ≤ (significand x : ℚ) * 2 ^ lastPlace x := by
      refine mul_le_mul_of_nonneg_right ?_ hpos.le
      exact_mod_cast hs
    rw [← zpow_add₀ (by norm_num)] at h1
    refine le_trans (zpow_le_zpow_right₀ (by norm_num) ?_) h1
    unfold lastPlace; omega

theorem magnitude_pos {x : DWord} (h : Finite x) : 0 < magnitude x := by
  rw [magnitude_eq]
  have := h.significand_pos
  positivity

/-- The spacing of R93 is the weight of the last kept bit of R99. -/
theorem spacing_eq {x : DWord} (h : Finite x) :
    spacing (magnitude x) = 2 ^ (lastPlace x + droppedBits x) := by
  unfold spacing
  congr 1
  rw [lastPlace_add_dropped]
  have hv := magnitude_pos h
  split
  · rename_i he
    have hlog : Int.log 2 (magnitude x) = (dExp x : ℤ) - 1023 := by
      have hs : 2 ^ 52 ≤ significand x := by unfold significand; split <;> omega
      have hM := significand_lt x
      have hl : lastPlace x = (dExp x : ℤ) - 1075 := by
        unfold lastPlace
        have : max (dExp x) 1 = dExp x := by omega
        rw [this]
      have hpos : (0 : ℚ) < 2 ^ lastPlace x := by positivity
      have h1 : (2 : ℚ) ^ ((dExp x : ℤ) - 1023) ≤ magnitude x := by
        rw [magnitude_eq]
        have : (2 : ℚ) ^ ((dExp x : ℤ) - 1023) = 2 ^ (52 : ℤ) * 2 ^ lastPlace x := by
          rw [← zpow_add₀ (by norm_num), hl]; congr 1; ring
        rw [this]
        refine mul_le_mul_of_nonneg_right ?_ hpos.le
        exact_mod_cast hs
      have h2 : magnitude x < (2 : ℚ) ^ ((dExp x : ℤ) - 1023 + 1) := by
        rw [magnitude_eq]
        have : (2 : ℚ) ^ ((dExp x : ℤ) - 1023 + 1) = 2 ^ (53 : ℤ) * 2 ^ lastPlace x := by
          rw [← zpow_add₀ (by norm_num), hl]; congr 1; ring
        rw [this]
        refine mul_lt_mul_of_pos_right ?_ hpos
        exact_mod_cast hM
      have a1 : (dExp x : ℤ) - 1023 ≤ Int.log 2 (magnitude x) :=
        (Int.zpow_le_iff_le_log (b := 2) (by norm_num) hv).1 (by rw [Nat.cast_ofNat]; exact h1)
      have a2 : Int.log 2 (magnitude x) < (dExp x : ℤ) - 1023 + 1 :=
        (Int.lt_zpow_iff_log_lt (b := 2) (by norm_num) hv).1 (by rw [Nat.cast_ofNat]; exact h2)
      omega
    rw [hlog, max_eq_left (by omega)]
    ring
  · rename_i he
    have hlt : magnitude x < minN := by
      rw [← not_le, minN_le_magnitude_iff]; exact he
    have a2 : Int.log 2 (magnitude x) < -126 :=
      (Int.lt_zpow_iff_log_lt (b := 2) (by norm_num) hv).1 (by rw [Nat.cast_ofNat]; exact hlt)
    rw [max_eq_right (by omega)]
    norm_num

theorem magnitude_div_spacing {x : DWord} (h : Finite x) :
    magnitude x / spacing (magnitude x) = (significand x : ℚ) / (2 ^ droppedBits x : ℕ) := by
  rw [spacing_eq h, magnitude_eq, zpow_add₀ (by norm_num)]
  push_cast
  rw [zpow_natCast]
  have : (2 : ℚ) ^ lastPlace x ≠ 0 := by positivity
  field_simp

/-- `lo` of R93 is `lo` of R99. -/
theorem lower_eq {x : DWord} (h : Finite x) : lower (magnitude x) = keptBits x := by
  unfold lower keptBits
  rw [magnitude_div_spacing h, Rat.floor_natCast_div_natCast]
  rfl

/-- `rem` of R93 is `rem / 2^k` of R99. -/
theorem remainder_eq {x : DWord} (h : Finite x) :
    remainder (magnitude x) = (remainderBits x : ℚ) / (2 ^ droppedBits x : ℕ) := by
  unfold remainder
  rw [lower_eq h, magnitude_div_spacing h]
  unfold keptBits remainderBits
  have hp : ((2 ^ droppedBits x : ℕ) : ℚ) ≠ 0 := by positivity
  have hdm : (significand x : ℚ) =
      ((2 ^ droppedBits x : ℕ) : ℚ) * ((significand x / 2 ^ droppedBits x : ℕ) : ℚ) +
        ((significand x % 2 ^ droppedBits x : ℕ) : ℚ) := by
    exact_mod_cast (Nat.div_add_mod (significand x) (2 ^ droppedBits x)).symm
  rw [eq_div_iff hp, sub_mul, div_mul_cancel₀ _ hp, Int.cast_natCast, hdm]
  ring

/-- `RoundUp` of R94 is `RU` of R99. -/
theorem up_eq (rn : BitVec 2) (s : BitVec 1) (lo rem k : ℕ) :
    up rn s lo ((rem : ℚ) / (2 ^ k : ℕ)) = roundUp rn s lo rem k := by
  have hp : (0 : ℚ) < ((2 ^ k : ℕ) : ℚ) := by positivity
  have h0 : ((rem : ℚ) / ((2 ^ k : ℕ) : ℚ) = 0) ↔ rem = 0 := by
    rw [div_eq_zero_iff]; simp
  have h1 : (1 / 2 < (rem : ℚ) / ((2 ^ k : ℕ) : ℚ)) ↔ 2 ^ k < 2 * rem := by
    rw [lt_div_iff₀ hp]
    constructor
    · intro h
      have : (((2 ^ k : ℕ)) : ℚ) < ((2 * rem : ℕ) : ℚ) := by push_cast at h ⊢; linarith
      exact_mod_cast this
    · intro h
      have : (((2 ^ k : ℕ)) : ℚ) < ((2 * rem : ℕ) : ℚ) := by exact_mod_cast h
      push_cast at this ⊢; linarith
  have h2 : ((rem : ℚ) / ((2 ^ k : ℕ) : ℚ) = 1 / 2) ↔ 2 * rem = 2 ^ k := by
    rw [div_eq_iff hp.ne']
    constructor
    · intro h
      have : ((2 * rem : ℕ) : ℚ) = (((2 ^ k : ℕ)) : ℚ) := by push_cast at h ⊢; linarith
      exact_mod_cast this
    · intro h
      have : ((2 * rem : ℕ) : ℚ) = (((2 ^ k : ℕ)) : ℚ) := by exact_mod_cast h
      push_cast at this ⊢; linarith
  have h3 : ((lo : ℤ) % 2 = 1) ↔ lo % 2 = 1 := by omega
  unfold up roundUp
  simp only [h0, h1, h2, h3]
  split_ifs <;> rfl

/-- `r` of R93 by the integers of R99. -/
theorem rounded_eq {x : DWord} (h : Finite x) (rn : BitVec 2) :
    rounded x rn =
      ((keptBits x + roundUp rn (dSign x) (keptBits x) (remainderBits x) (droppedBits x) : ℕ) : ℚ) *
        2 ^ (lastPlace x + droppedBits x) := by
  unfold rounded
  rw [lower_eq h, remainder_eq h, up_eq, spacing_eq h]
  push_cast
  ring

theorem roundUp_le (rn : BitVec 2) (s : BitVec 1) (lo rem k : ℕ) : roundUp rn s lo rem k ≤ 1 := by
  unfold roundUp
  split_ifs <;> omega

/-- The magnitude of consecutive words strictly grows (R91). -/
theorem singleMagnitude_strictMono : StrictMono singleMagnitude := by
  refine strictMono_nat_of_lt_succ fun m => ?_
  unfold singleMagnitude
  by_cases hE : m / 2 ^ 23 = 0
  · by_cases hE' : (m + 1) / 2 ^ 23 = 0
    · rw [if_pos hE, if_pos hE']
      refine mul_lt_mul_of_pos_right ?_ (by positivity)
      have : m % 2 ^ 23 < (m + 1) % 2 ^ 23 := by omega
      exact_mod_cast this
    · have hm : m = 2 ^ 23 - 1 := by omega
      subst hm
      norm_num
  · have hE' : (m + 1) / 2 ^ 23 ≠ 0 := by omega
    rw [if_neg hE, if_neg hE']
    by_cases hs : (m + 1) / 2 ^ 23 = m / 2 ^ 23
    · rw [hs]
      refine mul_lt_mul_of_pos_right ?_ (by positivity)
      have : m % 2 ^ 23 < (m + 1) % 2 ^ 23 := by omega
      have : ((m % 2 ^ 23 : ℕ) : ℚ) < (((m + 1) % 2 ^ 23 : ℕ) : ℚ) := by exact_mod_cast this
      linarith
    · have h1 : (m + 1) / 2 ^ 23 = m / 2 ^ 23 + 1 := by omega
      have h2 : (m + 1) % 2 ^ 23 = 0 := by omega
      have h3 : m % 2 ^ 23 = 2 ^ 23 - 1 := by omega
      rw [h1, h2, h3]
      have : (2 : ℚ) ^ (((m / 2 ^ 23 + 1 : ℕ) : ℤ) - 150) = 2 * 2 ^ (((m / 2 ^ 23 : ℕ) : ℤ) - 150) := by
        rw [← zpow_one_add₀ (by norm_num)]; congr 1; push_cast; ring
      rw [this]
      have hp : (0 : ℚ) < 2 ^ (((m / 2 ^ 23 : ℕ) : ℤ) - 150) := by positivity
      generalize (2 : ℚ) ^ (((m / 2 ^ 23 : ℕ) : ℤ) - 150) = y at hp ⊢
      norm_num
      linarith

/-- The integer `m` of R99 is the word magnitude of the rounded magnitude `r` of R93. -/
theorem singleMagnitude_roundedMag {x : DWord} (h : Finite x) (rn : BitVec 2) :
    singleMagnitude (roundedMag x rn) = rounded x rn := by
  rw [rounded_eq h, lastPlace_add_dropped]
  have hu := roundUp_le rn (dSign x) (keptBits x) (remainderBits x) (droppedBits x)
  have hM := significand_lt x
  unfold roundedMag
  generalize roundUp rn (dSign x) (keptBits x) (remainderBits x) (droppedBits x) = u at hu ⊢
  split
  · rename_i he
    have hlo : 2 ^ 23 ≤ keptBits x ∧ keptBits x < 2 ^ 24 := by
      have hs : 2 ^ 52 ≤ significand x := by unfold significand; split <;> omega
      have hk : droppedBits x = 29 := by unfold droppedBits; rw [if_pos he]
      unfold keptBits
      rw [hk]
      constructor <;> omega
    generalize keptBits x = lo at hlo ⊢
    unfold singleMagnitude
    by_cases hc : lo + u < 2 ^ 24
    · have h1 : ((dExp x - 897) * 2 ^ 23 + lo + u) / 2 ^ 23 = dExp x - 896 := by omega
      have h2 : ((dExp x - 897) * 2 ^ 23 + lo + u) % 2 ^ 23 = lo + u - 2 ^ 23 := by omega
      have h3 : ((dExp x - 896 : ℕ) : ℤ) - 150 = (dExp x : ℤ) - 1046 := by omega
      have h4 : (2 ^ 23 + ((lo + u - 2 ^ 23 : ℕ) : ℚ)) = ((lo + u : ℕ) : ℚ) := by
        have h5 : 2 ^ 23 + (lo + u - 2 ^ 23) = lo + u := by omega
        generalize lo + u - 2 ^ 23 = y at h5 ⊢
        rw [← h5]
        push_cast
        norm_num
      rw [h1, h2, if_neg (by omega), h3, h4]
    · have h0 : lo + u = 2 ^ 24 := by omega
      have h1 : ((dExp x - 897) * 2 ^ 23 + lo + u) / 2 ^ 23 = dExp x - 895 := by omega
      have h2 : ((dExp x - 897) * 2 ^ 23 + lo + u) % 2 ^ 23 = 0 := by omega
      rw [h1, h2, if_neg (by omega), h0]
      have : ((dExp x - 895 : ℕ) : ℤ) - 150 = 1 + ((dExp x : ℤ) - 1046) := by omega
      rw [this, zpow_one_add₀ (by norm_num)]
      push_cast
      ring
  · rename_i he
    have hlo : keptBits x < 2 ^ 23 := by
      have hk : 30 ≤ droppedBits x := by unfold droppedBits; split_ifs <;> omega
      unfold keptBits
      rw [Nat.div_lt_iff_lt_mul (by positivity)]
      have : 2 ^ 30 ≤ 2 ^ droppedBits x := Nat.pow_le_pow_right (by norm_num) hk
      omega
    have h0 : dExp x - 897 = 0 := by omega
    rw [h0]
    generalize keptBits x = lo at hlo ⊢
    unfold singleMagnitude
    by_cases hc : lo + u < 2 ^ 23
    · have h1 : (0 * 2 ^ 23 + lo + u) / 2 ^ 23 = 0 := by omega
      have h2 : (0 * 2 ^ 23 + lo + u) % 2 ^ 23 = lo + u := by omega
      rw [if_pos h1, h2]
    · have h3 : lo + u = 2 ^ 23 := by omega
      have h1 : (0 * 2 ^ 23 + lo + u) / 2 ^ 23 = 1 := by omega
      have h2 : (0 * 2 ^ 23 + lo + u) % 2 ^ 23 = 0 := by omega
      rw [h1, h2, if_neg (by omega), h3]
      norm_num

theorem maxF_eq : maxF = singleMagnitude maxMag := by
  unfold maxF singleMagnitude maxMag; norm_num

theorem two_pow_128_eq : (2 : ℚ) ^ 128 = singleMagnitude infMag := by
  unfold singleMagnitude infMag; norm_num

theorem minN_eq : minN = singleMagnitude minNormalMag := by
  unfold minN singleMagnitude minNormalMag; norm_num

theorem zero_eq : (0 : ℚ) = singleMagnitude 0 := by
  unfold singleMagnitude; norm_num

/-- Overflow over rationals is overflow of R99. -/
theorem maxF_lt_rounded_iff {x : DWord} (h : Finite x) (rn : BitVec 2) :
    maxF < rounded x rn ↔ infMag ≤ roundedMag x rn := by
  rw [maxF_eq, ← singleMagnitude_roundedMag h, singleMagnitude_strictMono.lt_iff_lt]
  unfold maxMag infMag; omega

/-- A flush over rationals is a flush of R99. -/
theorem flushed_iff {x : DWord} (h : Finite x) (rn : BitVec 2) (ni : Bool) :
    Flushed x rn ni ↔ flushes ni (roundedMag x rn) = true := by
  unfold Flushed flushes
  rw [minN_eq, zero_eq, ← singleMagnitude_roundedMag h, singleMagnitude_strictMono.lt_iff_lt,
    singleMagnitude_strictMono.lt_iff_lt]
  simp [and_assoc]

/-- The result is exact over rationals exactly when the remainder of R99 is zero. -/
theorem rounded_eq_magnitude_iff {x : DWord} (h : Finite x) (rn : BitVec 2) :
    rounded x rn = magnitude x ↔ remainderBits x = 0 := by
  rw [rounded_eq h, magnitude_eq, zpow_add₀ (by norm_num), zpow_natCast]
  have hq : (2 : ℚ) ^ lastPlace x ≠ 0 := by positivity
  have hu := roundUp_le rn (dSign x) (keptBits x) (remainderBits x) (droppedBits x)
  have hdm := Nat.div_add_mod (significand x) (2 ^ droppedBits x)
  have hml := Nat.mod_lt (significand x) (show 0 < 2 ^ droppedBits x by positivity)
  change 2 ^ droppedBits x * keptBits x + remainderBits x = significand x at hdm
  change remainderBits x < 2 ^ droppedBits x at hml
  constructor
  · intro hr
    have h1 : (((keptBits x + roundUp rn (dSign x) (keptBits x) (remainderBits x) (droppedBits x) : ℕ) : ℚ) *
        2 ^ droppedBits x) = (significand x : ℚ) := by
      have : ((keptBits x + roundUp rn (dSign x) (keptBits x) (remainderBits x) (droppedBits x) : ℕ) : ℚ) *
          2 ^ droppedBits x * 2 ^ lastPlace x = (significand x : ℚ) * 2 ^ lastPlace x := by
        rw [← hr]; ring
      exact mul_right_cancel₀ hq this
    have h2 : (keptBits x + roundUp rn (dSign x) (keptBits x) (remainderBits x) (droppedBits x)) *
        2 ^ droppedBits x = significand x := by exact_mod_cast h1
    by_contra hne
    have hz : roundUp rn (dSign x) (keptBits x) (remainderBits x) (droppedBits x) = 0 ∨
        roundUp rn (dSign x) (keptBits x) (remainderBits x) (droppedBits x) = 1 := by omega
    rcases hz with hz | hz <;> rw [hz] at h2
    · rw [Nat.add_zero, Nat.mul_comm] at h2
      omega
    · rw [Nat.add_mul, Nat.one_mul, Nat.mul_comm (keptBits x)] at h2
      omega
  · intro hr
    have hz : roundUp rn (dSign x) (keptBits x) (remainderBits x) (droppedBits x) = 0 := by
      unfold roundUp; rw [if_pos hr]
    rw [hz, Nat.add_zero]
    rw [hr, Nat.add_zero] at hdm
    rw [← hdm]
    push_cast
    ring

end Sys2Proof.Narrowing
end

