-- ==== Sys2Proof/Laws/PerInstr.lean ====
section
/-! SUPPORT. A statement per instruction: the encoder's word has the mask and match of R57. -/

namespace Sys2Proof.Laws.EncodeMatch

/-- The mask of an instruction's row in R57. -/
def mask : Instr → Word
  | .stfs _ _ _ => 0xFC000000
  | .stfsu _ _ _ => 0xFC000000
  | .stfsx _ _ _ => 0xFC0007FF
  | .stfsux _ _ _ => 0xFC0007FF

/-- The match of an instruction's row in R57. -/
def pattern : Instr → Word
  | .stfs _ _ _ => 0xD0000000
  | .stfsu _ _ _ => 0xD4000000
  | .stfsx _ _ _ => 0x7C00052E
  | .stfsux _ _ _ => 0x7C00056E

/-- `W AND mask = match` holds of the word of the instruction (R57). -/
def Statement (i : Instr) : Prop := encode i &&& mask i = pattern i

/-- The D form under the mask of its primary opcode keeps the primary opcode alone. -/
theorem dForm_masked (op : BitVec 6) (fs ra : RegNum) (d : BitVec 16) :
    ((op ++ fs ++ ra ++ d : Word) &&& 0xFC000000) = (op ++ 0#5 ++ 0#5 ++ 0#16 : Word) := by
  have hmask : (0xFC000000 : Word) = (BitVec.allOnes 6 ++ 0#5 ++ 0#5 ++ 0#16 : Word) := by decide
  rw [hmask]
  simp only [BitVec.and_append, BitVec.and_allOnes, BitVec.and_zero]

/-- The X form under the mask of its opcodes keeps the two opcodes and the last bit alone. -/
theorem xForm_masked (op : BitVec 6) (xo : BitVec 10) (rc : BitVec 1) (fs ra rb : RegNum) :
    ((op ++ fs ++ ra ++ rb ++ xo ++ rc : Word) &&& 0xFC0007FF) =
      (op ++ 0#5 ++ 0#5 ++ 0#5 ++ xo ++ rc : Word) := by
  have hmask : (0xFC0007FF : Word) =
      (BitVec.allOnes 6 ++ 0#5 ++ 0#5 ++ 0#5 ++ BitVec.allOnes 10 ++ BitVec.allOnes 1 : Word) := by decide
  rw [hmask]
  simp only [BitVec.and_append, BitVec.and_allOnes, BitVec.and_zero]

theorem stfs (fs ra : RegNum) (d : BitVec 16) : Statement (.stfs fs ra d) := dForm_masked 52 fs ra d

theorem stfsu (fs ra : RegNum) (d : BitVec 16) : Statement (.stfsu fs ra d) := dForm_masked 53 fs ra d

theorem stfsx (fs ra rb : RegNum) : Statement (.stfsx fs ra rb) := xForm_masked 31 663 0 fs ra rb

theorem stfsux (fs ra rb : RegNum) : Statement (.stfsux fs ra rb) := xForm_masked 31 695 0 fs ra rb

end Sys2Proof.Laws.EncodeMatch
end

