-- ==== Sys2Proof/Laws/Rows.lean ====
section
/-! SUPPORT. What it says of a word's fields to match a mask and pattern of R57. -/

namespace Sys2Proof

/-- A word under the D-form mask shows its primary opcode. -/
theorem matchesRow_dForm (w : Word) (op : BitVec 6) :
    MatchesRow w (0xFC000000, (op ++ 0#5 ++ 0#5 ++ 0#16 : Word)) ↔ fieldOpcd w = op := by
  show w &&& 0xFC000000 = _ ↔ _
  conv_lhs => rw [← dForm_fields w]
  rw [Laws.EncodeMatch.dForm_masked]
  refine ⟨fun h => ?_, fun h => by rw [h]⟩
  have h1 := congrArg fieldOpcd h
  rwa [(fields_dForm _ _ _ _).1, (fields_dForm _ _ _ _).1] at h1

/-- A word under the X-form mask shows its two opcodes and its last bit. -/
theorem matchesRow_xForm (w : Word) (op : BitVec 6) (xo : BitVec 10) (rc : BitVec 1) :
    MatchesRow w (0xFC0007FF, (op ++ 0#5 ++ 0#5 ++ 0#5 ++ xo ++ rc : Word)) ↔
      fieldOpcd w = op ∧ fieldXo w = xo ∧ fieldRc w = rc := by
  show w &&& 0xFC0007FF = _ ↔ _
  conv_lhs => rw [← xForm_fields w]
  rw [Laws.EncodeMatch.xForm_masked]
  refine ⟨fun h => ?_, fun h => by rw [h.1, h.2.1, h.2.2]⟩
  have h1 := congrArg fieldOpcd h
  have h2 := congrArg fieldXo h
  have h3 := congrArg fieldRc h
  rw [(fields_xForm _ _ _ _ _ _).1, (fields_xForm _ _ _ _ _ _).1] at h1
  rw [(fields_xForm _ _ _ _ _ _).2.2.2.2.1, (fields_xForm _ _ _ _ _ _).2.2.2.2.1] at h2
  rw [(fields_xForm _ _ _ _ _ _).2.2.2.2.2, (fields_xForm _ _ _ _ _ _).2.2.2.2.2] at h3
  exact ⟨h1, h2, h3⟩

end Sys2Proof
end

