-- ==== Sys2Proof/Laws/Store.lean ====
section
/-! SUPPORT. What the common step R70 can do, said once: its inversion, its completion and the fields it leaves. -/

namespace Sys2Proof.Machine

/-- `a ≤ 2^32 - 4` for an admitted store (R36). -/
theorem State.le_of_admits {s : State} {a : Addr} (h : s.admits a = true) : a.toNat ≤ 2 ^ 32 - 4 := by
  simp only [State.admits, Bool.and_eq_true, decide_eq_true_eq] at h
  exact h.1

/-- The common step answers a next state exactly when every check of R70 lets it pass, and that state is the
committed store. -/
theorem storeSingle_next_iff {fs : RegNum} {b o : DWord} {u : Option RegNum} {s t : State} :
    storeSingle fs b o u s = .next t ↔
      (s.pc.toNat + 4 < 2 ^ 32 ∧ s.msrFp = true ∧ s.admits (addrOf (addressSum b o)) = true ∧
        s.hitsText (addrOf (addressSum b o)) = false ∧ s.alignmentFaults (addrOf (addressSum b o)) = false) ∧
      t = s.commitStore fs (addressSum b o) u := by
  simp only [storeSingle, refuse, raiseFault, stuckAt]
  split_ifs with h1 h2 h3 h4 h5 <;> simp_all
  exact ⟨fun h => ⟨by omega, h.symm⟩, fun h => h.2.symm⟩

/-- The common step raises a fault only for a disabled unit, an unadmitted access or a misaligned store to
cache-inhibited storage (R111, R112, R36, R37). -/
theorem storeSingle_fault_cases {fs : RegNum} {b o : DWord} {u : Option RegNum} {s : State} {f : Fault}
    (h : storeSingle fs b o u s = .fault f) :
    (f = .floatingPointUnavailable s.pc ∧ s.msrFp = false) ∨
    (f = .stuckAccess (addrOf (addressSum b o)) ∧ s.msrFp = true ∧
      s.admits (addrOf (addressSum b o)) = false) ∨
    (f = .alignment s.pc (addrOf (addressSum b o)) ∧ s.msrFp = true ∧
      s.admits (addrOf (addressSum b o)) = true ∧ s.alignmentFaults (addrOf (addressSum b o)) = true) := by
  simp only [storeSingle, refuse, raiseFault, stuckAt] at h
  split_ifs at h with h1 h2 h3 h4 h5 <;> simp_all

/-- The common step refuses only at the top of the pc's range or for a store into the program text (R77, R43). -/
theorem storeSingle_refused_cases {fs : RegNum} {b o : DWord} {u : Option RegNum} {s : State} {r : Refusal}
    (h : storeSingle fs b o u s = .refused r) :
    (r = .pcOverflow ∧ 2 ^ 32 ≤ s.pc.toNat + 4) ∨
    (r = .storeToProgramText ∧ s.hitsText (addrOf (addressSum b o)) = true) := by
  simp only [storeSingle, refuse, raiseFault, stuckAt] at h
  split_ifs at h with h1 h2 h3 h4 h5 <;> simp_all

/-- `NoCiMisalign`, or `cfg.ciMisalign = perform`, rules the Alignment exception out (R34). -/
theorem State.alignmentFaults_eq_false {s : State} {a : Addr}
    (h : s.NoCiMisalign a ∨ s.cfg.ciMisalign = .perform) : s.alignmentFaults a = false := by
  rcases h with (h | h) | h <;> simp [State.alignmentFaults, h]

/-- A storable access completes. -/
theorem storeSingle_of_storable {fs : RegNum} {b o : DWord} {u : Option RegNum} {s : State}
    (h : s.Storable (addrOf (addressSum b o))) :
    storeSingle fs b o u s = .next (s.commitStore fs (addressSum b o) u) := by
  obtain ⟨h1, h2, ⟨h3, h4⟩, h5⟩ := h
  exact storeSingle_next_iff.2 ⟨⟨h1, h2, h3, h4, State.alignmentFaults_eq_false h5⟩, rfl⟩

/-- Two runs of the common step at the same address, from states that agree on the pc, `MSR.FP`, the text, the
access checks of the configuration and the draw, have the same outcome but for `g`, if their committed stores are the
same but for `g`. -/
theorem storeSingle_congr {fs : RegNum} {b o b' o' : DWord} {u u' : Option RegNum} {s s' : State}
    (g : State → State) (ha : addrOf (addressSum b' o') = addrOf (addressSum b o))
    (h1 : s'.pc = s.pc) (h2 : s'.msrFp = s.msrFp) (h3 : s'.text = s.text)
    (h4 : s'.cfg.absent = s.cfg.absent) (h5 : s'.cfg.inhibited = s.cfg.inhibited)
    (h6 : s'.cfg.ciMisalign = s.cfg.ciMisalign) (h7 : s'.draws = s.draws)
    (hg : s'.commitStore fs (addressSum b' o') u' = g (s.commitStore fs (addressSum b o) u)) :
    storeSingle fs b' o' u' s' = mapNext g (storeSingle fs b o u s) := by
  have hadm : s'.admits (addrOf (addressSum b o)) = s.admits (addrOf (addressSum b o)) := by
    unfold State.admits
    rw [show memAdmit s'.cfg = memAdmit s.cfg from by funext a; simp [memAdmit, h4]]
  have htx : s'.hitsText (addrOf (addressSum b o)) = s.hitsText (addrOf (addressSum b o)) := by
    unfold State.hitsText; rw [h3]
  have hal : s'.alignmentFaults (addrOf (addressSum b o)) = s.alignmentFaults (addrOf (addressSum b o)) := by
    unfold State.alignmentFaults State.hitsInhibited
    rw [show cacheInhibited s'.cfg = cacheInhibited s.cfg from by funext a; simp [cacheInhibited, h5], h6, h7]
  simp only [storeSingle, ha, h1, h2, hadm, htx, hal, hg, refuse, raiseFault, stuckAt]
  split_ifs <;> rfl

/-! The fields of a committed store. -/

@[simp] theorem State.commitStore_fpr (s : State) (fs : RegNum) (sum : DWord) (u : Option RegNum) :
    (s.commitStore fs sum u).fpr = s.fpr := by simp [State.commitStore]
@[simp] theorem State.commitStore_pc (s : State) (fs : RegNum) (sum : DWord) (u : Option RegNum) :
    (s.commitStore fs sum u).pc = s.pc + 4 := by simp [State.commitStore]
@[simp] theorem State.commitStore_msrFp (s : State) (fs : RegNum) (sum : DWord) (u : Option RegNum) :
    (s.commitStore fs sum u).msrFp = s.msrFp := by simp [State.commitStore]
@[simp] theorem State.commitStore_text (s : State) (fs : RegNum) (sum : DWord) (u : Option RegNum) :
    (s.commitStore fs sum u).text = s.text := by simp [State.commitStore]
@[simp] theorem State.commitStore_cfg (s : State) (fs : RegNum) (sum : DWord) (u : Option RegNum) :
    (s.commitStore fs sum u).cfg = s.cfg := by simp [State.commitStore]
@[simp] theorem State.commitStore_draws (s : State) (fs : RegNum) (sum : DWord) (u : Option RegNum) :
    (s.commitStore fs sum u).draws = s.draws + 1 := by simp [State.commitStore]
@[simp] theorem State.commitStore_mem (s : State) (fs : RegNum) (sum : DWord) (u : Option RegNum) :
    (s.commitStore fs sum u).mem = s.mem.writeWord (addrOf sum).toNat (s.storedWord fs) := by
  simp [State.commitStore]
@[simp] theorem State.commitStore_reservations (s : State) (fs : RegNum) (sum : DWord) (u : Option RegNum) :
    (s.commitStore fs sum u).reservations = s.reservations.map (keepReservation s.cfg (addrOf sum)) := by
  simp [State.commitStore]
@[simp] theorem State.commitStore_fpscr (s : State) (fs : RegNum) (sum : DWord) (u : Option RegNum) :
    (s.commitStore fs sum u).fpscr = s.fpscr.update s.cfg.fpscrPolicy (s.raisedFlags fs) s.draws := by
  simp [State.commitStore]
theorem State.commitStore_gpr (s : State) (fs : RegNum) (sum : DWord) (u : Option RegNum) :
    (s.commitStore fs sum u).gpr = (s.writeBack u sum).gpr := by cases u <;> simp [State.commitStore]
@[simp] theorem State.commitStore_gpr_none (s : State) (fs : RegNum) (sum : DWord) :
    (s.commitStore fs sum none).gpr = s.gpr := by simp [State.commitStore]
@[simp] theorem State.commitStore_gpr_some (s : State) (fs : RegNum) (sum : DWord) (ra : RegNum) :
    (s.commitStore fs sum (some ra)).gpr = s.gpr.set ra.toNat (writeBackValue s.cfg sum) := by
  simp [State.commitStore]

/-- A committed store has the effect of R70 steps 7 to 9 and 11. -/
theorem State.commitStore_effect {s : State} (fs : RegNum) (sum : DWord) (u : Option RegNum)
    (hm : s.mem.wf = true) (ha : (addrOf sum).toNat ≤ 2 ^ 32 - 4) :
    StoreEffect s (s.commitStore fs sum u) fs (addrOf sum) := by
  obtain ⟨hw, hframe⟩ := Memory.read_writeWord (s.storedWord fs) hm ha
  refine ⟨?_, by simpa using hframe, by simp, State.commitStore_fpscr .., by simp, by simp, by simp, by simp, by simp⟩
  rw [State.commitStore_mem]
  exact ⟨hw 0 (by decide), hw 1 (by decide), hw 2 (by decide), hw 3 (by decide)⟩

/-- The register an update form writes holds `WB(s)`, the others are as before (R76, R19). -/
theorem State.commitStore_gprUpdated (s : State) (fs ra : RegNum) (sum : DWord) :
    GprUpdated s (s.commitStore fs sum (some ra)) ra (writeBackValue s.cfg sum) := by
  refine ⟨by simp [State.readGpr], fun r hr => ?_⟩
  have hij : ra.toNat ≠ r.toNat := fun e => hr (BitVec.eq_of_toNat_eq e.symm)
  simp [State.readGpr, Vector.getElem_set_ne _ _ hij]

/-- Every well-formed instruction is the common step on its operands (R70, R78). -/
theorem exec_eq_storeSingle {i : Instr} (h : i.wf = true) (s : State) :
    exec i s = storeSingle i.source (s.baseOf i) (s.offsetOf i) i.updates s := by
  cases i with
  | stfs fs ra d => rfl
  | stfsu fs ra d =>
    have h0 : ra ≠ 0 := by simpa [Instr.wf] using h
    show (if ra = 0 then _ else _) = _
    rw [if_neg h0]; rfl
  | stfsx fs ra rb => rfl
  | stfsux fs ra rb =>
    have h0 : ra ≠ 0 := by simpa [Instr.wf] using h
    show (if ra = 0 then _ else _) = _
    rw [if_neg h0]; rfl

/-- An ill-formed instruction is refused as an invalid form (R59). -/
theorem exec_of_not_wf {i : Instr} (h : i.wf = false) (s : State) : exec i s = .refused .invalidForm := by
  cases i with
  | stfs fs ra d => simp [Instr.wf] at h
  | stfsu fs ra d =>
    have h0 : ra = 0 := by simpa [Instr.wf] using h
    subst h0; rfl
  | stfsx fs ra rb => simp [Instr.wf] at h
  | stfsux fs ra rb =>
    have h0 : ra = 0 := by simpa [Instr.wf] using h
    subst h0; rfl

/-- If an instruction answers a next state, it is well-formed, every check let it pass, and the next state is the
committed store. -/
theorem exec_next {i : Instr} {s t : State} (h : exec i s = .next t) :
    i.wf = true ∧
      (s.pc.toNat + 4 < 2 ^ 32 ∧ s.msrFp = true ∧ s.admits (s.addrOfInstr i) = true ∧
        s.hitsText (s.addrOfInstr i) = false ∧ s.alignmentFaults (s.addrOfInstr i) = false) ∧
      t = s.commitStore i.source (s.sumOf i) i.updates := by
  cases hwf : i.wf with
  | false => rw [exec_of_not_wf hwf] at h; exact absurd h (by simp)
  | true =>
    rw [exec_eq_storeSingle hwf] at h
    exact ⟨rfl, storeSingle_next_iff.1 h⟩

end Sys2Proof.Machine
end

