-- ==== Sys2Proof/Laws/Settings.lean ====
section
/-! SUPPORT. The settings that statements change (the configuration): their fields, and what of an instruction
does not depend on them. -/

namespace Sys2Proof.Machine

@[simp] theorem State.withCfg_gpr (s : State) (c : Config) : (s.withCfg c).gpr = s.gpr := rfl
@[simp] theorem State.withCfg_fpr (s : State) (c : Config) : (s.withCfg c).fpr = s.fpr := rfl
@[simp] theorem State.withCfg_pc (s : State) (c : Config) : (s.withCfg c).pc = s.pc := rfl
@[simp] theorem State.withCfg_msrFp (s : State) (c : Config) : (s.withCfg c).msrFp = s.msrFp := rfl
@[simp] theorem State.withCfg_fpscr (s : State) (c : Config) : (s.withCfg c).fpscr = s.fpscr := rfl
@[simp] theorem State.withCfg_reservations (s : State) (c : Config) : (s.withCfg c).reservations = s.reservations := rfl
@[simp] theorem State.withCfg_mem (s : State) (c : Config) : (s.withCfg c).mem = s.mem := rfl
@[simp] theorem State.withCfg_text (s : State) (c : Config) : (s.withCfg c).text = s.text := rfl
@[simp] theorem State.withCfg_cfg (s : State) (c : Config) : (s.withCfg c).cfg = c := rfl
@[simp] theorem State.withCfg_draws (s : State) (c : Config) : (s.withCfg c).draws = s.draws := rfl
@[simp] theorem State.withCfg_baseOf (s : State) (c : Config) (i : Instr) :
    (s.withCfg c).baseOf i = s.baseOf i := by cases i <;> rfl
@[simp] theorem State.withCfg_offsetOf (s : State) (c : Config) (i : Instr) :
    (s.withCfg c).offsetOf i = s.offsetOf i := by cases i <;> rfl

@[simp] theorem setSfd_sfd (c : Config) (v : SfdInstance) : (c.setSfd v).sfd = v := rfl
@[simp] theorem setSfd_fpscrPolicy (c : Config) (v : SfdInstance) : (c.setSfd v).fpscrPolicy = c.fpscrPolicy := rfl
@[simp] theorem setSfd_updateWriteback (c : Config) (v : SfdInstance) : (c.setSfd v).updateWriteback = c.updateWriteback := rfl
@[simp] theorem setSfd_ciMisalign (c : Config) (v : SfdInstance) : (c.setSfd v).ciMisalign = c.ciMisalign := rfl
@[simp] theorem setSfd_absent (c : Config) (v : SfdInstance) : (c.setSfd v).absent = c.absent := rfl
@[simp] theorem setSfd_inhibited (c : Config) (v : SfdInstance) : (c.setSfd v).inhibited = c.inhibited := rfl
@[simp] theorem setSfd_granuleExp (c : Config) (v : SfdInstance) : (c.setSfd v).granuleExp = c.granuleExp := rfl

@[simp] theorem setPolicy_sfd (c : Config) (v : FpscrPolicy) : (c.setPolicy v).sfd = c.sfd := rfl
@[simp] theorem setPolicy_fpscrPolicy (c : Config) (v : FpscrPolicy) : (c.setPolicy v).fpscrPolicy = v := rfl
@[simp] theorem setPolicy_updateWriteback (c : Config) (v : FpscrPolicy) : (c.setPolicy v).updateWriteback = c.updateWriteback := rfl
@[simp] theorem setPolicy_ciMisalign (c : Config) (v : FpscrPolicy) : (c.setPolicy v).ciMisalign = c.ciMisalign := rfl
@[simp] theorem setPolicy_absent (c : Config) (v : FpscrPolicy) : (c.setPolicy v).absent = c.absent := rfl
@[simp] theorem setPolicy_inhibited (c : Config) (v : FpscrPolicy) : (c.setPolicy v).inhibited = c.inhibited := rfl
@[simp] theorem setPolicy_granuleExp (c : Config) (v : FpscrPolicy) : (c.setPolicy v).granuleExp = c.granuleExp := rfl

@[simp] theorem setWriteback_sfd (c : Config) (v : UpdateWriteback) : (c.setWriteback v).sfd = c.sfd := rfl
@[simp] theorem setWriteback_fpscrPolicy (c : Config) (v : UpdateWriteback) : (c.setWriteback v).fpscrPolicy = c.fpscrPolicy := rfl
@[simp] theorem setWriteback_updateWriteback (c : Config) (v : UpdateWriteback) : (c.setWriteback v).updateWriteback = v := rfl
@[simp] theorem setWriteback_ciMisalign (c : Config) (v : UpdateWriteback) : (c.setWriteback v).ciMisalign = c.ciMisalign := rfl
@[simp] theorem setWriteback_absent (c : Config) (v : UpdateWriteback) : (c.setWriteback v).absent = c.absent := rfl
@[simp] theorem setWriteback_inhibited (c : Config) (v : UpdateWriteback) : (c.setWriteback v).inhibited = c.inhibited := rfl
@[simp] theorem setWriteback_granuleExp (c : Config) (v : UpdateWriteback) : (c.setWriteback v).granuleExp = c.granuleExp := rfl

/-- Which reservations a store leaves depends on the granule size alone. -/
theorem keepReservation_congr {c c' : Config} (h : c'.granuleExp = c.granuleExp) (a : Addr) :
    keepReservation c' a = keepReservation c a := by
  funext o
  cases o <;> simp [keepReservation, granuleOf, granuleSize, h]

end Sys2Proof.Machine
end

