-- ==== Sys2Proof/Laws/Step.lean ====
section
/-! SUPPORT. What one step can do, said once. -/

namespace Sys2Proof.Machine

/-- If a step answers a next state, a word was fetched, it decoded to an instruction, and that was executed. -/
theorem step_next {s t : State} (h : step s = .next t) :
    ∃ w i, s.ended = false ∧ s.fetch = some w ∧ decodeWord w = .instr i ∧ exec i s = .next t := by
  simp only [step] at h
  split at h
  · exact absurd h (by simp)
  · rename_i he
    split at h
    · exact absurd h (by simp)
    · rename_i w hw
      split at h
      · rename_i i hi
        exact ⟨w, i, by simpa using he, hw, hi, h⟩
      · exact absurd h (by simp)
      · exact absurd h (by simp)

/-- What a successful fetch says of the pc (R135). -/
theorem State.fetch_some {s : State} {w : Word} (h : s.fetch = some w) :
    s.text.holds s.pc.toNat = true ∧ s.pc.toNat % 4 = 0 ∧ s.text.base.toNat % 4 = 0 ∧
      w = s.mem.readWord s.pc.toNat := by
  unfold State.fetch at h
  split at h
  · rename_i hc
    simp [misaligned] at hc
    exact ⟨hc.1.1, hc.1.2, hc.2, by simpa using h.symm⟩
  · exact absurd h (by simp)

end Sys2Proof.Machine
end

