-- ==== Sys2Proof/Tests/Slice0.lean ====
section
/-! SUPPORT. Tests with results taken from spec/, and for every obligation with hypotheses a witness that meets them. -/

namespace Sys2Proof.Tests

open Sys2Proof Sys2Proof.Machine

/-! Well-formedness and decoding. The words are written field by field from R51, R52 and R57. -/

/-- R59: the update forms with `RA = 0` are ill-formed, the other forms with `RA = 0` are not. -/
theorem test_wf_refuses_update_of_r0 :
    (Instr.stfsu 1 0 4).wf = false ∧ (Instr.stfsux 1 0 2).wf = false ∧
    (Instr.stfs 1 0 4).wf = true ∧ (Instr.stfsx 1 0 0).wf = true := by decide

/-- R51: `stfs f1, 8(r3)`. -/
theorem test_decode_stfs :
    decodeWord 0b110100_00001_00011_0000000000001000 = .instr (.stfs 1 3 8) := by decide

/-- R51: `stfsu f2, -4(r1)`. -/
theorem test_decode_stfsu :
    decodeWord 0b110101_00010_00001_1111111111111100 = .instr (.stfsu 2 1 (-4)) := by decide

/-- R52: `stfsx f3, r4, r5`. -/
theorem test_decode_stfsx :
    decodeWord 0b011111_00011_00100_00101_1010010111_0 = .instr (.stfsx 3 4 5) := by decide

/-- R52: `stfsux f31, r31, r30`. -/
theorem test_decode_stfsux :
    decodeWord 0b011111_11111_11111_11110_1010110111_0 = .instr (.stfsux 31 31 30) := by decide

/-- R58, R59, R60: `RA = 0` in both update forms, `Rc = 1` in both X forms, and the neighbours of the opcodes. -/
theorem test_decode_refused :
    decodeWord 0b110101_00001_00000_0000000000000100 = .invalidForm ∧
    decodeWord 0b011111_00001_00000_00010_1010110111_0 = .invalidForm ∧
    decodeWord 0b011111_00011_00100_00101_1010010111_1 = .notInSpec ∧
    decodeWord 0b011111_00011_00000_00101_1010110111_1 = .notInSpec ∧
    decodeWord 0b011111_00011_00100_00101_1010010110_0 = .notInSpec ∧
    decodeWord 0b110110_00001_00011_0000000000001000 = .notInSpec ∧
    decodeWord 0 = .notInSpec := by decide

/-- R57: the opcode words, bit 0 the least significant; the update forms need `RA` not 0. -/
theorem test_decodeTableWord :
    decodeTableWord 32 0xD0000000 = some (.stfs 0 0 0) ∧ decodeTableWord 32 0xD4010000 = some (.stfsu 0 1 0) ∧
    decodeTableWord 32 0x7C00052E = some (.stfsx 0 0 0) ∧ decodeTableWord 32 0x7C01056E = some (.stfsux 0 1 0) ∧
    decodeTableWord 32 0xD4000000 = none := by decide

/-- R61: the assembler text of the spec's examples. -/
theorem test_asm :
    (Instr.stfs 1 0 (-16)).asm = "stfs f1, -16(0)" ∧ (Instr.stfsu 2 1 (-4)).asm = "stfsu f2, -4(r1)" ∧
    (Instr.stfsx 1 0 0).asm = "stfsx f1, 0, r0" ∧
    (Instr.stfsux 31 31 30).asm = "stfsux f31, r31, r30" := by decide

/-! A small state, the registers of the worked examples of R71 to R74, and what an outcome holds. -/

/-- The registers of the worked examples. -/
def sample : State :=
  { State.reset with
    gpr := (((((State.reset.gpr.set 1 0x0000000070001000).set 3 0x0000000000001000).set 4
      0x0000000000002000).set 5 0x13).set 31 0x0000000000003000).set 30 0xFFFFFFFFFFFFFFF0
    fpr := (((State.reset.fpr.set 1 0x3FF8000000000000).set 2 0xC004000000000000).set 3
      0x3FF0000000000000).set 31 0x7FF0000000000000 }

/-- The same with the instruction word `w` at the pc. -/
def sampleAt (w : Nat) : State := sample.withFetchWord 32 w

/-- The outcome is a next state with the property `p`. -/
def goesOn (o : Host.Outcome State Fault Refusal) (p : State → Bool) : Bool :=
  match o with
  | .next t => p t
  | .fault _ => false
  | .refused _ => false

/-- The outcome is the fault `f`. -/
def faults (o : Host.Outcome State Fault Refusal) (f : Fault) : Bool :=
  match o with
  | .next _ => false
  | .fault g => g == f
  | .refused _ => false

/-- The outcome is the refusal `r`. -/
def refuses (o : Host.Outcome State Fault Refusal) (r : Refusal) : Bool :=
  match o with
  | .next _ => false
  | .fault _ => false
  | .refused q => q == r

/-- Four bytes of memory. -/
def bytesAt (t : State) (a : Nat) : List Byte :=
  [t.mem.read a, t.mem.read (a + 1), t.mem.read (a + 2), t.mem.read (a + 3)]

/-! One step of each instruction. -/

/-- R71, worked example. -/
theorem test_stfs_example :
    goesOn (step (sampleAt 0xD0230008)) (fun t =>
      bytesAt t 0x1008 == [0x3F, 0xC0, 0x00, 0x00] && t.pc == 0x00010004 && t.gpr == sample.gpr) = true := by
  decide

/-- R71, R55: `stfs f1, -16(0)` stores at `0xFFFFFFF0` whatever `x[0]` holds. -/
theorem test_stfs_literal_zero :
    goesOn (exec (.stfs 1 0 (-16)) (sample.writeGpr 0 0x5000)) (fun t =>
      bytesAt t 0xFFFFFFF0 == [0x3F, 0xC0, 0x00, 0x00] && t.mem.read 0x4FF0 == 0) = true := by decide

/-- R72, worked example. -/
theorem test_stfsu_example :
    goesOn (step (sampleAt 0xD441FFFC)) (fun t =>
      bytesAt t 0x70000FFC == [0xC0, 0x20, 0x00, 0x00] && t.readGpr 1 == 0x0000000070000FFC &&
        t.pc == 0x00010004) = true := by decide

/-- R72, R76: with `d = 0` the write-back clears the high half under `ea32_zext` and keeps it under `sum64`. -/
theorem test_stfsu_writeback :
    goesOn (exec (.stfsu 1 1 0) (sample.writeGpr 1 0xABCD000000001000)) (fun t =>
      t.readGpr 1 == 0x1000 && t.mem.read 0x1000 == 0x3F) = true ∧
    goesOn (exec (.stfsu 1 1 0) ((sample.writeGpr 1 0xABCD000000001000).withCfg
      (configReset.setWriteback .sum64))) (fun t =>
      t.readGpr 1 == 0xABCD000000001000 && t.mem.read 0x1000 == 0x3F) = true := by decide

/-- R73, worked example: a misaligned store. -/
theorem test_stfsx_example :
    goesOn (step (sampleAt 0x7C642D2E)) (fun t =>
      bytesAt t 0x2013 == [0x3F, 0x80, 0x00, 0x00] && t.pc == 0x00010004 && t.gpr == sample.gpr) = true := by
  decide

/-- R73, R56: the sum wraps before its low half is taken, and `RB = 0` reads `x[0]`. -/
theorem test_stfsx_sum :
    goesOn (exec (.stfsx 1 3 5) (sample.writeGpr 3 0x00000000FFFFFFFF)) (fun t =>
      t.mem.read 0x12 == 0x3F) = true ∧
    goesOn (exec (.stfsx 1 0 0) (sample.writeGpr 0 0x6000)) (fun t => t.mem.read 0x6000 == 0x3F) = true := by
  decide

/-- R74, worked example. -/
theorem test_stfsux_example :
    goesOn (step (sampleAt 0x7FFFF56E)) (fun t =>
      bytesAt t 0x2FF0 == [0x7F, 0x80, 0x00, 0x00] && t.readGpr 31 == 0x0000000000002FF0 &&
        t.pc == 0x00010004) = true := by decide

/-- R74: `RA = RB` reads the old value twice. -/
theorem test_stfsux_same_register :
    goesOn (exec (.stfsux 3 4 4) sample) (fun t =>
      t.mem.read 0x4000 == 0x3F && t.mem.read 0x4001 == 0x80 && t.readGpr 4 == 0x4000) = true := by decide

/-- The first instruction after reset runs, for a word of each row. -/
theorem test_first_step_after_reset :
    goesOn (step (State.reset.withFetchWord 32 0xD0000000)) (fun t => t.pc == 0x00010004) = true ∧
    goesOn (step (State.reset.withFetchWord 32 0xD4010000)) (fun t => t.pc == 0x00010004) = true ∧
    goesOn (step (State.reset.withFetchWord 32 0x7C00052E)) (fun t => t.pc == 0x00010004) = true ∧
    goesOn (step (State.reset.withFetchWord 32 0x7C01056E)) (fun t => t.pc == 0x00010004) = true := by decide

/-! The conversion and FPSCR, from 95_test_vectors.md. -/

/-- Rounding in the four modes: 0.1, -0.1, a tie, and a carry into the exponent. -/
theorem test_rounding_modes :
    [0, 1, 2, 3].map (fun rn => sfdRn 0x3FB999999999999A rn false) =
      [0x3DCCCCCD, 0x3DCCCCCC, 0x3DCCCCCD, 0x3DCCCCCC] ∧
    [0, 1, 2, 3].map (fun rn => sfdRn 0xBFB999999999999A rn false) =
      [0xBDCCCCCD, 0xBDCCCCCC, 0xBDCCCCCC, 0xBDCCCCCD] ∧
    [0, 1, 2, 3].map (fun rn => sfdRn 0x3FF0000030000000 rn false) =
      [0x3F800002, 0x3F800001, 0x3F800002, 0x3F800001] ∧
    [0, 1, 2, 3].map (fun rn => sfdRn 0x3FFFFFFFFFFFFFFF rn false) =
      [0x40000000, 0x3FFFFFFF, 0x40000000, 0x3FFFFFFF] := by
  decide

/-- Overflow by mode and sign: the tie above `MAXF`, the value below it, and -1e39. -/
theorem test_overflow :
    [0, 1, 2, 3].map (fun rn => sfdRn 0x47EFFFFFF0000000 rn false) =
      [0x7F800000, 0x7F7FFFFF, 0x7F800000, 0x7F7FFFFF] ∧
    [0, 1, 2, 3].map (fun rn => sfdRn 0x47EFFFFFEFFFFFFF rn false) =
      [0x7F7FFFFF, 0x7F7FFFFF, 0x7F800000, 0x7F7FFFFF] ∧
    [0, 1, 2, 3].map (fun rn => sfdRn 0xC8078287F49C4A1D rn false) =
      [0xFF800000, 0xFF7FFFFF, 0xFF7FFFFF, 0xFF800000] := by
  decide

/-- Subnormal results, flushed and not, the carry to `MINN`, and NaNs. -/
theorem test_subnormal_and_nan :
    sfdRn 0x3800000000000000 0 false = 0x00400000 ∧ sfdRn 0xB730000000000000 0 true = 0x80000000 ∧
    sfdRn 0x380FFFFFE0000000 0 true = 0x00800000 ∧ sfdRn 0x7FF0000000000001 0 false = 0x7FC00000 ∧
    sfdRn 0xFFF4000000000000 0 false = 0xFFE00000 ∧ sfdRn 0x7FFD555540000000 0 false = 0x7FEAAAAA := by decide

/-- `SFD_arch`: truncation, denormalisation, an out-of-range value and a signalling NaN. -/
theorem test_arch :
    sfdArch 0x3FB999999999999A 0 = 0x3DCCCCCC ∧ sfdArch 0x36A8000000000000 0 = 0x00000001 ∧
    sfdArch 0x48078287F49C4A1D 0 = 0x403C143F ∧ sfdArch 0x7FF0000000000001 0 = 0x7F800000 := by decide

/-- FP3, FP4, FP5, FP7 and FP9: the flags. -/
theorem test_flags :
    narrowingFlags 0x48078287F49C4A1D 0 false 0 = [.xx, .ox] ∧ narrowingFlags 0x47EFFFFFEFFFFFFF 0 false 0 = [.xx] ∧
    narrowingFlags 0x47EFFFFFEFFFFFFF 2 false 0 = [.xx, .ox] ∧
    narrowingFlags 0x7FF0000000000001 0 false 0 = [.vxsnan] ∧ narrowingFlags 0x3800000000000000 0 false 0 = [] := by
  decide

/-- FP2 under `ieee_flags` and under `unchanged`. -/
theorem test_fpscr_policy :
    (Fpscr.reset.update .ieeeFlags [.xx] 0).xx = true ∧ (Fpscr.reset.update .ieeeFlags [.xx] 0).ox = false ∧
    Fpscr.reset.update .unchanged [.xx] 0 = Fpscr.reset := by decide

/-! Witnesses. A state for each clause of each statement that has hypotheses. -/

/-- A state of a run: two words of text, `stfs f1, 8(r3)` and `stfsux f31, r31, r30`, at the pc. -/
def running : State :=
  { sample with
    mem := Memory.writeWord (Memory.writeWord [] 0x10000 0xD0230008) 0x10004 0x7FFFF56E
    text := ⟨0x00010000, 2⟩ }

/-- With the floating-point unit disabled. -/
def fpOff : State := { sample with msrFp := false }

/-- With the pc at the last word of the address space. -/
def atTop : State := { sample with pc := 0xFFFFFFFC }

/-- With the byte `0x1003` absent. -/
def absentByte : State := { sample with cfg := { configReset with absent := [⟨0x1003, 1⟩] } }

/-- With the byte `0x1004` cache-inhibited, under one of the three settings. -/
def inhibitedByte (m : CiMisalign) : State :=
  { sample with cfg := { configReset with inhibited := [⟨0x1004, 1⟩], ciMisalign := m } }

/-- Four agents: one without a reservation, two with one on the granules of 128 bytes around `0x1080`, one with one
elsewhere. -/
def reserving : State := { sample with reservations := [none, some 0x20, some 0x21, some 0x22] }

/-- What `goesOn` says: there is a next state. -/
theorem next_of_goesOn {o : Host.Outcome State Fault Refusal} {p : State → Bool} (h : goesOn o p = true) :
    ∃ t, o = .next t ∧ p t = true := by
  cases o with
  | next t => exact ⟨t, rfl, h⟩
  | fault f => exact absurd h (by simp [goesOn])
  | refused r => exact absurd h (by simp [goesOn])

/-- What `faults` says. -/
theorem fault_of_faults {o : Host.Outcome State Fault Refusal} {f : Fault} (h : faults o f = true) :
    o = .fault f := by
  cases o with
  | next t => exact absurd h (by simp [faults])
  | fault g => simpa [faults] using h
  | refused r => exact absurd h (by simp [faults])

/-- What `refuses` says. -/
theorem refused_of_refuses {o : Host.Outcome State Fault Refusal} {r : Refusal} (h : refuses o r = true) :
    o = .refused r := by
  cases o with
  | next t => exact absurd h (by simp [refuses])
  | fault f => exact absurd h (by simp [refuses])
  | refused q => simpa [refuses] using h

/-! Encoding. -/

theorem witness_DecodeOfEncode : (Instr.stfsu 31 1 0x8000).wf = true ∧ (Instr.stfsux 31 31 31).wf = true := by
  decide

theorem witness_EncodeOfDecode :
    decodeWord 0xD7FF8000 = .instr (.stfsu 31 31 0x8000) ∧ decodeWord 0x7C01056E = .instr (.stfsux 0 1 0) := by
  decide

theorem witness_MaskAndMatchSelect :
    MatchesRow 0xD3FFFFFF (0xFC000000, 0xD0000000) ∧
    (MatchesRow 0xD4010000 (0xFC000000, 0xD4000000) ∧ fieldRa 0xD4010000 ≠ 0) ∧
    MatchesRow 0x7FFFFD2E (0xFC0007FF, 0x7C00052E) ∧
    (MatchesRow 0x7C01056E (0xFC0007FF, 0x7C00056E) ∧ fieldRa 0x7C01056E ≠ 0) := by decide

theorem witness_InvalidFormsRefused :
    (sampleAt 0xD4200004).ended = false ∧ (sampleAt 0xD4200004).fetch = some 0xD4200004 ∧
    decodeWord 0xD4200004 = .invalidForm ∧ (31 : RegNum) ≠ 0 := by decide

theorem witness_OtherWordsRefused :
    MatchesRow 0x7C642D2F (0xFC0007FF, 0x7C00052F) ∧ MatchesRow 0x7C00056F (0xFC0007FF, 0x7C00056F) ∧
    (sampleAt 0x7C642D2F).ended = false ∧ (sampleAt 0x7C642D2F).fetch = some 0x7C642D2F ∧
    decodeWord 0x7C642D2F = .notInSpec := by decide

/-! The step. -/

/-- At the first and at the last word of the text. -/
theorem witness_StepRunsDecodedInstruction :
    (running.ended = false ∧ running.fetch = some 0xD0230008 ∧
      decodeWord 0xD0230008 = .instr (.stfs 1 3 8)) ∧
    (running.advancePc.ended = false ∧ running.advancePc.fetch = some 0x7FFFF56E ∧
      decodeWord 0x7FFFF56E = .instr (.stfsux 31 31 30)) := by decide

theorem witness_FetchIsBigEndianWord :
    running.text.base.toNat % 4 = 0 ∧ 1 < running.text.len ∧
    running.advancePc.pc.toNat = running.advancePc.text.base.toNat + 4 * 1 := by decide

theorem witness_RunEndsAfterLastWord :
    running.advancePc.advancePc.pc.toNat = running.text.base.toNat + 4 * running.text.len := by decide

/-! Operands and address. -/

/-- Registers other than 0, and a storable sum of `x[RA]` with a displacement and with `x[RB]`. -/
theorem witness_Ra0IsLiteralZero :
    (1 : RegNum) ≠ 0 ∧ (31 : RegNum) ≠ 0 ∧ sample.mem.wf = true ∧
    sample.Storable (addrOf (addressSum (sample.readGpr 1) (displacement (-4)))) ∧
    sample.Storable (addrOf (addressSum (sample.readGpr 31) (sample.readGpr 30))) := by decide

/-- A base, an index and a register written back with another high half; a next state, a fault and a refusal. -/
theorem witness_HighHalfNotInAddress :
    (0xFFFFFFFF00001000 : DWord).extractLsb' 0 32 = (sample.readGpr 3).extractLsb' 0 32 ∧
    (0x00000001FFFFFFF0 : DWord).extractLsb' 0 32 = (sample.readGpr 30).extractLsb' 0 32 ∧
    (Instr.stfsx 3 3 30).updates = none ∧
    exec (.stfsux 3 3 30) fpOff = .fault (.floatingPointUnavailable 0x10000) ∧
    exec (.stfsux 3 3 30) atTop = .refused .pcOverflow ∧
    ∃ t, exec (.stfsux 3 3 30) sample = .next t ∧ t.readGpr 3 = 0xFF0 :=
  ⟨by decide, by decide, rfl, fault_of_faults (by decide), refused_of_refuses (by decide),
    (next_of_goesOn (o := exec (.stfsux 3 3 30) sample) (p := fun t => t.readGpr 3 == 0xFF0) (by decide)).imp
      fun _ h => ⟨h.1, by simpa using h.2⟩⟩

theorem witness_WriteBackByConfiguration :
    configReset.updateWriteback = .ea32Zext ∧ (configReset.setWriteback .sum64).updateWriteback = .sum64 ∧
    EaFits32 0xFFFFFFFF ∧ ¬ EaFits32 0x100000000 := by decide

/-! The four instructions: storable aligned, at the top of the address space, misaligned, and misaligned in
cache-inhibited storage under `perform`; the unit disabled; an address not admitted; an Alignment exception. -/

theorem witness_StfsRule :
    sample.mem.wf = true ∧ sample.Storable (sample.addrOfInstr (.stfs 1 3 8)) ∧
    sample.Storable (addrOf (addressSum 0 (displacement (-4)))) ∧
    sample.Storable (sample.addrOfInstr (.stfs 1 3 1)) ∧
    (inhibitedByte .perform).Storable (sample.addrOfInstr (.stfs 1 3 1)) ∧
    (fpOff.pc.toNat + 4 < 2 ^ 32 ∧ fpOff.msrFp = false) ∧
    0xFFFFFFFC < (addrOf (addressSum 0 (displacement (-3)))).toNat ∧
    exec (.stfs 1 3 1) (inhibitedByte .fault) = .fault (.alignment 0x10000 0x1001) :=
  ⟨by decide, by decide, by decide, by decide, by decide, by decide, by decide,
    fault_of_faults (by decide)⟩

theorem witness_StfsuRule :
    (3 : RegNum) ≠ 0 ∧ sample.mem.wf = true ∧ sample.Storable (sample.addrOfInstr (.stfsu 1 3 8)) ∧
    sample.Storable (sample.addrOfInstr (.stfsu 1 3 1)) ∧
    (inhibitedByte .perform).Storable (sample.addrOfInstr (.stfsu 1 3 1)) ∧
    (fpOff.pc.toNat + 4 < 2 ^ 32 ∧ fpOff.msrFp = false) ∧
    0xFFFFFFFC < ((sample.writeGpr 3 0).addrOfInstr (.stfsu 1 3 (-3))).toNat ∧
    exec (.stfsu 1 3 1) (inhibitedByte .fault) = .fault (.alignment 0x10000 0x1001) :=
  ⟨by decide, by decide, by decide, by decide, by decide, by decide, by decide,
    fault_of_faults (by decide)⟩

theorem witness_StfsxRule :
    sample.mem.wf = true ∧ sample.Storable (sample.addrOfInstr (.stfsx 3 0 4)) ∧
    sample.Storable (sample.addrOfInstr (.stfsx 3 4 5)) ∧
    ((inhibitedByte .perform).writeGpr 5 1).Storable
      (((inhibitedByte .perform).writeGpr 5 1).addrOfInstr (.stfsx 1 3 5)) ∧
    (fpOff.pc.toNat + 4 < 2 ^ 32 ∧ fpOff.msrFp = false) ∧
    0xFFFFFFFC < ((sample.writeGpr 4 0xFFFFFFFD).addrOfInstr (.stfsx 3 0 4)).toNat ∧
    exec (.stfsx 1 3 5) ((inhibitedByte .fault).writeGpr 5 1) = .fault (.alignment 0x10000 0x1001) :=
  ⟨by decide, by decide, by decide, by decide, by decide, by decide, fault_of_faults (by decide)⟩

theorem witness_StfsuxRule :
    (31 : RegNum) ≠ 0 ∧ sample.mem.wf = true ∧ sample.Storable (sample.addrOfInstr (.stfsux 31 31 30)) ∧
    sample.Storable (sample.addrOfInstr (.stfsux 3 4 5)) ∧
    ((inhibitedByte .perform).writeGpr 5 1).Storable
      (((inhibitedByte .perform).writeGpr 5 1).addrOfInstr (.stfsux 1 3 5)) ∧
    (fpOff.pc.toNat + 4 < 2 ^ 32 ∧ fpOff.msrFp = false) ∧
    0xFFFFFFFC < ((sample.writeGpr 4 0x7FFFFFFF).addrOfInstr (.stfsux 3 4 4)).toNat ∧
    exec (.stfsux 1 3 5) ((inhibitedByte .fault).writeGpr 5 1) = .fault (.alignment 0x10000 0x1001) :=
  ⟨by decide, by decide, by decide, by decide, by decide, by decide, by decide,
    fault_of_faults (by decide)⟩

/-- The witness of `NonUpdateFrame` and of every statement with `exec i s = .next t`: a misaligned store that clears
a reservation. -/
theorem witness_NonUpdateFrame :
    ∃ t, (Instr.stfsx 3 4 5).updates = none ∧ reserving.mem.wf = true ∧ exec (.stfsx 3 4 5) reserving = .next t :=
  (next_of_goesOn (o := exec (.stfsx 3 4 5) reserving) (p := fun _ => true) (by decide)).imp
    fun _ h => ⟨rfl, rfl, h.1⟩

theorem witness_UpdateFrame :
    ∃ t, (Instr.stfsux 31 31 30).updates = some 31 ∧ sample.mem.wf = true ∧
      exec (.stfsux 31 31 30) sample = .next t ∧ t.readGpr 30 = sample.readGpr 30 :=
  (next_of_goesOn (o := exec (.stfsux 31 31 30) sample) (p := fun t => t.readGpr 30 == sample.readGpr 30)
    (by decide)).imp fun _ h => ⟨rfl, rfl, h.1, by simpa using h.2⟩

/-- The highest address a store completes at. -/
theorem witness_CompletedStoreIsBigEndian :
    ∃ t, sample.mem.wf = true ∧ exec (.stfs 1 0 (-4)) sample = .next t ∧
      bytesAt t 0xFFFFFFFC = [0x3F, 0xC0, 0x00, 0x00] :=
  (next_of_goesOn (o := exec (.stfs 1 0 (-4)) sample)
    (p := fun t => bytesAt t 0xFFFFFFFC == [0x3F, 0xC0, 0x00, 0x00]) (by decide)).imp
    fun _ h => ⟨rfl, h.1, by simpa using h.2⟩

/-! Exceptions, refusals and their order. -/

theorem witness_FloatingPointUnavailableRule :
    (Instr.stfsu 1 3 1).wf = true ∧ fpOff.pc.toNat + 4 < 2 ^ 32 ∧ fpOff.msrFp = false ∧
    exec (.stfsu 1 3 1) fpOff = .fault (.floatingPointUnavailable 0x10000) :=
  ⟨by decide, by decide, by decide, fault_of_faults (by decide)⟩

/-- Only the last of the four bytes is cache-inhibited. -/
theorem witness_AlignmentRule :
    exec (.stfs 1 3 1) (inhibitedByte .fault) = .fault (.alignment 0x10000 0x1001) ∧
    (Instr.stfs 1 3 1).wf = true ∧ (inhibitedByte .fault).pc.toNat + 4 < 2 ^ 32 ∧
    (inhibitedByte .fault).msrFp = true ∧
    (inhibitedByte .fault).StoreAdmitted ((inhibitedByte .fault).addrOfInstr (.stfs 1 3 1)) ∧
    ((inhibitedByte .fault).addrOfInstr (.stfs 1 3 1)).toNat % 4 ≠ 0 ∧
    (∃ k < 4, cacheInhibited (inhibitedByte .fault).cfg
      (((inhibitedByte .fault).addrOfInstr (.stfs 1 3 1)).toNat + k) = true) ∧
    (inhibitedByte .fault).cfg.ciMisalign = .fault :=
  ⟨fault_of_faults (by decide), by decide, by decide, by decide, by decide, by decide, ⟨3, by decide, by decide⟩,
    by decide⟩

/-- Aligned in cache-inhibited storage; misaligned outside it; misaligned inside it under each setting. -/
theorem witness_MisalignedStoresTolerated :
    (inhibitedByte .may).mem.wf = true ∧
    (inhibitedByte .may).StoreAdmitted ((inhibitedByte .may).addrOfInstr (.stfs 1 3 4)) ∧
    ((inhibitedByte .may).addrOfInstr (.stfs 1 3 4)).toNat % 4 = 0 ∧
    (∀ k < 4, cacheInhibited sample.cfg ((sample.addrOfInstr (.stfs 1 3 1)).toNat + k) = false) ∧
    (inhibitedByte .perform).cfg.ciMisalign = .perform ∧ (inhibitedByte .may).cfg.ciMisalign = .may ∧
    (inhibitedByte .fault).cfg.ciMisalign = .fault ∧
    cacheInhibited (inhibitedByte .fault).cfg ((sample.addrOfInstr (.stfs 1 3 1)).toNat + 3) = true := by decide

/-- The lowest address that is not admitted; an absent byte at the end of the store. -/
theorem witness_UnadmittedStoreIsStuck :
    sample.pc.toNat + 4 < 2 ^ 32 ∧ sample.msrFp = true ∧
    2 ^ 32 - 4 < (sample.addrOfInstr (.stfs 1 0 (-3))).toNat ∧
    memAdmit absentByte.cfg ((absentByte.addrOfInstr (.stfs 1 3 0)).toNat + 3) = false := by decide

/-- The store's last byte is the first byte of the text; its first byte is the last byte of the text. -/
theorem witness_StoreToProgramTextRefused :
    (running.writeGpr 3 0xFFFD).admits 0xFFFD = true ∧
    (running.writeGpr 3 0xFFFD).addrOfInstr (.stfs 1 3 0) = 0xFFFD ∧
    running.text.base.toNat ≤ (0xFFFD : Addr).toNat + 3 ∧
    (running.writeGpr 3 0x10007).addrOfInstr (.stfs 1 3 0) = 0x10007 ∧
    (0x10007 : Addr).toNat + 0 < running.text.base.toNat + 4 * running.text.len := by decide

theorem witness_PcAdvancesByFour :
    (∃ t, exec (.stfs 1 3 8) sample = .next t ∧ t.pc = 0x10004) ∧
    (Instr.stfs 1 3 8).wf = true ∧ 2 ^ 32 ≤ atTop.pc.toNat + 4 :=
  ⟨(next_of_goesOn (o := exec (.stfs 1 3 8) sample) (p := fun t => t.pc == 0x10004) (by decide)).imp
    fun _ h => ⟨h.1, by simpa using h.2⟩, by decide, by decide⟩

/-- Each condition of the order is met by some state, with none of the earlier ones. -/
theorem witness_OutcomesInPriorityOrder :
    (Instr.stfsu 1 0 4).wf = false ∧ 2 ^ 32 ≤ atTop.pc.toNat + 4 ∧
    (fpOff.pc.toNat + 4 < 2 ^ 32 ∧ fpOff.msrFp = false) ∧
    (absentByte.msrFp = true ∧ absentByte.admits (absentByte.addrOfInstr (.stfs 1 3 0)) = false) ∧
    (running.admits 0xFFFD = true ∧ running.hitsText 0xFFFD = true) ∧
    ((inhibitedByte .fault).hitsText 0x1001 = false ∧ (inhibitedByte .fault).alignmentFaults 0x1001 = true) ∧
    (sample.admits 0x1001 = true ∧ sample.hitsText 0x1001 = false ∧ sample.alignmentFaults 0x1001 = false) := by
  decide

theorem witness_ExactlyTwoExceptions :
    exec (.stfs 1 3 8) fpOff = .fault (.floatingPointUnavailable 0x10000) ∧
    exec (.stfs 1 3 1) (inhibitedByte .fault) = .fault (.alignment 0x10000 0x1001) ∧
    exec (.stfs 1 3 0) absentByte = .fault (.stuckAccess 0x1000) :=
  ⟨fault_of_faults (by decide), fault_of_faults (by decide), fault_of_faults (by decide)⟩

/-! Reservations. -/

/-- A store across two granules clears the reservations on both, and leaves the one beside them. -/
theorem witness_StoreClearsTouchedReservations :
    ∃ t, exec (.stfs 1 3 0x7D) reserving = .next t ∧ t.reservations = [none, none, none, some 0x22] :=
  (next_of_goesOn (o := exec (.stfs 1 3 0x7D) reserving)
    (p := fun t => t.reservations == [none, none, none, some 0x22]) (by decide)).imp
    fun _ h => ⟨h.1, by simpa using h.2⟩

/-! FPSCR. -/

theorem witness_FpscrUpdateByPolicy :
    NarrowFlag.xx ∈ [NarrowFlag.xx, NarrowFlag.ox] ∧ NarrowFlag.ux ∉ [NarrowFlag.xx, NarrowFlag.ox] := by decide

/-- A step goes on from a state in which a flag is set. -/
theorem witness_ControlsKeptFlagsSticky :
    ∃ t, step { running with fpscr := { Fpscr.reset with ox := true } } = .next t ∧ t.fpscr.ox = true :=
  (next_of_goesOn (o := step { running with fpscr := { Fpscr.reset with ox := true } })
    (p := fun t => t.fpscr.ox) (by decide)).imp fun _ h => h

/-- Two states that differ in the enables and in the double that is stored. -/
theorem witness_FlagsNeverStopStore :
    (∃ t, exec (.stfs 1 3 8) sample = .next t) ∧
    { sample with fpscr := { Fpscr.reset with oe := true, xe := true }
                  fpr := sample.fpr.set 1 0x48078287F49C4A1D }.gpr = sample.gpr :=
  ⟨(next_of_goesOn (o := exec (.stfs 1 3 8) sample) (p := fun _ => true) (by decide)).imp fun _ h => h.1, rfl⟩

/-! The conversion. -/

/-- Each case of the common core, the normal numbers at both ends of the range. -/
theorem witness_CommonCore :
    dIsZero 0x8000000000000000 = true ∧ dIsInf 0xFFF0000000000000 = true ∧
    dIsQuietNan 0xFFF8000012345678 = true ∧
    (dExp 0x3810000000000000 = 897 ∧ (0x3810000000000000 : DWord).extractLsb' 0 29 = 0) ∧
    (dExp 0x47EFFFFFE0000000 = 1150 ∧ (0x47EFFFFFE0000000 : DWord).extractLsb' 0 29 = 0) ∧
    (sfdExact 0x47EFFFFFE0000000).isSome = true ∧ sample.SourceExact 2 := by decide

/-- NaNs of both kinds, an infinity, a zero; finite doubles at both ends. -/
theorem witness_SfdRnIsExactNarrowing_classes :
    dIsNan 0x7FF0000000000001 = true ∧ dIsInf 0x7FF0000000000000 = true ∧ dIsZero 0 = true ∧
    Narrowing.Finite 1 ∧ Narrowing.Finite 0x7FEFFFFFFFFFFFFF := by
  unfold Narrowing.Finite; decide

/-- 1e39 overflows; 2^-127 is flushed with `NI = 1` and not with `NI = 0`. -/
theorem witness_SfdRnIsExactNarrowing_finite :
    Narrowing.maxF < Narrowing.rounded 0x48078287F49C4A1D 0 ∧
    (Narrowing.rounded 0x3800000000000000 0 ≤ Narrowing.maxF ∧ Narrowing.Flushed 0x3800000000000000 0 true) ∧
    ¬ Narrowing.Flushed 0x3800000000000000 0 false := by
  have h1 : Narrowing.Finite 0x48078287F49C4A1D := by unfold Narrowing.Finite; decide
  have h2 : Narrowing.Finite 0x3800000000000000 := by unfold Narrowing.Finite; decide
  rw [Narrowing.maxF_lt_rounded_iff h1, ← not_lt (a := Narrowing.maxF), Narrowing.maxF_lt_rounded_iff h2,
    Narrowing.flushed_iff h2, Narrowing.flushed_iff h2]
  decide

/-- An exact double below overflow; one whose rounded magnitude is not flushed under either `NI`. -/
theorem witness_SfdRnDependsOnModesOnlyWhereItMust :
    Narrowing.Finite 0x3FF0000000000000 ∧
    Narrowing.rounded 0x3FF0000000000000 0 ≤ Narrowing.maxF ∧
    Narrowing.remainder (Narrowing.magnitude 0x3FF0000000000000) = 0 ∧
    ¬ (0 < Narrowing.rounded 0x3FF0000000000000 0 ∧ Narrowing.rounded 0x3FF0000000000000 0 < Narrowing.minN) := by
  have h : Narrowing.Finite 0x3FF0000000000000 := by unfold Narrowing.Finite; decide
  refine ⟨h, ?_, ?_, fun hc => ?_⟩
  · rw [← not_lt, Narrowing.maxF_lt_rounded_iff h]; decide
  · rw [Narrowing.remainder_eq h, show remainderBits 0x3FF0000000000000 = 0 by decide]; simp
  · exact absurd ((Narrowing.flushed_iff h 0 true).1 ⟨rfl, hc⟩) (by decide)

/-- Signalling and quiet NaN; then an exact result, an inexact normal one and an inexact tiny one. -/
theorem witness_NarrowingFlagsTable :
    dIsSignallingNan 0x7FF0000000000001 = true ∧ dIsQuietNan 0x7FF8000000000000 = true ∧
    Narrowing.rounded 0x3800000000000000 0 = Narrowing.magnitude 0x3800000000000000 ∧
    (Narrowing.rounded 0x3FB999999999999A 0 ≠ Narrowing.magnitude 0x3FB999999999999A ∧
      Narrowing.minN ≤ Narrowing.magnitude 0x3FB999999999999A) ∧
    (Narrowing.rounded 0x380FFFFFE0000000 0 ≠ Narrowing.magnitude 0x380FFFFFE0000000 ∧
      ¬ Narrowing.minN ≤ Narrowing.magnitude 0x380FFFFFE0000000) := by
  have h1 : Narrowing.Finite 0x3800000000000000 := by unfold Narrowing.Finite; decide
  have h2 : Narrowing.Finite 0x3FB999999999999A := by unfold Narrowing.Finite; decide
  have h3 : Narrowing.Finite 0x380FFFFFE0000000 := by unfold Narrowing.Finite; decide
  rw [ne_eq, ne_eq, Narrowing.rounded_eq_magnitude_iff h1, Narrowing.rounded_eq_magnitude_iff h2,
    Narrowing.rounded_eq_magnitude_iff h3, Narrowing.minN_le_magnitude_iff, Narrowing.minN_le_magnitude_iff]
  decide

/-- The tie above `MAXF`. -/
theorem witness_OverflowExactlyFromTwoTo128 : Narrowing.Finite 0x47EFFFFFF0000000 := by
  unfold Narrowing.Finite; decide

/-- A subnormal result that is not flushed, and a NaN. -/
theorem witness_SfdRneIgnoresFpscr :
    flushes false (roundedMag 0x3800000000000000 0) = false ∧
    flushes true (roundedMag 0x7FF8000000000000 0) = false := by decide

/-- The ends of the three cases, and where the function is defined. -/
theorem witness_SfdArchSelectsBits :
    dExp 0x3810000000000000 = 897 ∧ (0 : DWord).extractLsb' 0 63 = 0 ∧ dExp 0x3800000000000000 = 896 ∧
    dExp 0x36A8000000000000 = 874 ∧ archUndefined 0x36A8000000000000 = false ∧
    archUndefined 0x3690000000000000 = true ∧ dExp 0x47EFFFFFFFFFFFFF = 1150 := by decide

theorem witness_ConversionDecidesOnlyStoredBytes :
    ∃ t, exec (.stfs 1 3 8) sample = .next t ∧ sample.mem.wf = true :=
  (next_of_goesOn (o := exec (.stfs 1 3 8) sample) (p := fun _ => true) (by decide)).imp fun _ h => ⟨h.1, rfl⟩

theorem witness_WriteBackSettingIrrelevantWhenSumFits :
    EaFits32 (sample.sumOf (.stfsux 31 31 30)) ∧ EaFits32 (sample.sumOf (.stfsu 2 1 (-4))) := by decide

/-! Whole-machine rules. -/

/-- A state of a run, from which a step goes on: the witness of `StepKeepsInvariant`, `ProgramTextNeverWritten` and
`ConfigurationFixed`. -/
theorem witness_StepKeepsInvariant : running.Inv ∧ running.mem.wf = true ∧ ∃ t, step running = .next t :=
  ⟨by decide, by decide,
    (next_of_goesOn (o := step running) (p := fun _ => true) (by decide)).imp fun _ h => h.1⟩

/-- The invariant at the end of the text, too. -/
theorem witness_PcStaysInText : running.Inv ∧ running.advancePc.advancePc.Inv := by decide

/-- A byte of the text keeps its value while the step goes on. -/
theorem witness_ProgramTextNeverWritten :
    ∃ t, step running = .next t ∧ running.text.base.toNat ≤ 0x10007 ∧
      0x10007 < running.text.base.toNat + 4 * running.text.len ∧ t.mem.read 0x10007 = 0x6E :=
  (next_of_goesOn (o := step running) (p := fun t => t.mem.read 0x10007 == 0x6E) (by decide)).imp
    fun _ h => ⟨h.1, by decide, by decide, by simpa using h.2⟩

/-- The premises of a run; the store at the pc is admitted and aligned; a store that would hit the text. -/
theorem witness_PremisedRunGoesOn :
    (running.Inv ∧ running.TextWellFormed ∧ running.FpEnabled) ∧
    running.StoreAdmitted (running.addrOfInstr (.stfs 1 3 8)) ∧
    running.NoCiMisalign (running.addrOfInstr (.stfs 1 3 8)) ∧
    step (running.writeGpr 3 0xFFF8) = .refused .storeToProgramText :=
  ⟨by decide, by decide, by decide, refused_of_refuses (by decide)⟩

end Sys2Proof.Tests
end

section
/-! The configuration and the draw index across one instruction and one step. -/

namespace Sys2Proof.Machine

/-- R5: a completed instruction is a committed store, which keeps the configuration and uses one draw index. -/
theorem exec_next_keeps_cfg_advances_draws {i : Instr} {s t : State} (h : exec i s = .next t) :
    t.cfg = s.cfg ∧ t.draws = s.draws + 1 := by
  obtain ⟨-, -, rfl⟩ := exec_next h
  exact ⟨State.commitStore_cfg .., State.commitStore_draws ..⟩

/-- Settles O50: a step that answers a next state executed an instruction, and the instruction's fact carries over. -/
theorem configurationFixed : Obligations.ConfigurationFixed := by
  refine ⟨fun _ _ _ h => exec_next_keeps_cfg_advances_draws h, fun _ _ h => ?_⟩
  obtain ⟨_, _, -, -, -, hexec⟩ := step_next h
  exact exec_next_keeps_cfg_advances_draws hexec

end Sys2Proof.Machine
end

section
/-! What one completed instruction leaves unchanged (R19): the frame that the non-update and the update forms share,
and the general registers of each. -/

namespace Sys2Proof.Machine

/-- `FpscrUpdate` writes only the flags and the summary and result bits, under every policy (R102). -/
theorem Fpscr.sameControls_update (f : Fpscr) (p : FpscrPolicy) (flags : List NarrowFlag) (draw : Nat) :
    Fpscr.SameControls (f.update p flags draw) f := by
  unfold Fpscr.update
  split
  · simp [Fpscr.SameControls]
  · cases p <;> simp [Fpscr.SameControls, Fpscr.raise, Fpscr.withSummary]

/-- A store creates no reservation: what an agent keeps it held before (R42). -/
theorem keepReservation_eq_some {c : Config} {a : Addr} {r : Option Nat} {g : Nat}
    (h : keepReservation c a r = some g) : r = some g := by
  cases r with
  | none => exact absurd h (by simp [keepReservation])
  | some g' =>
    simp only [keepReservation] at h
    split at h
    · exact absurd h (by simp)
    · exact h

/-- A completed instruction has the effect of R70 at its address. -/
theorem exec_next_storeEffect {i : Instr} {s t : State} (hm : s.mem.wf = true) (h : exec i s = .next t) :
    StoreEffect s t i.source (s.addrOfInstr i) := by
  obtain ⟨-, ⟨-, -, hadmits, -, -⟩, rfl⟩ := exec_next h
  exact State.commitStore_effect _ _ _ hm (State.le_of_admits hadmits)

/-- What every completed instruction, update form or not, leaves unchanged (R19, R42). -/
theorem exec_next_frame {i : Instr} {s t : State} (hm : s.mem.wf = true) (h : exec i s = .next t) :
    t.fpr = s.fpr ∧ t.msrFp = s.msrFp ∧ t.text = s.text ∧ t.cfg = s.cfg ∧
    Fpscr.SameControls t.fpscr s.fpscr ∧
    (∀ n g : Nat, t.reservations[n]? = some (some g) → s.reservations[n]? = some (some g)) ∧
    ∀ b, b < (s.addrOfInstr i).toNat ∨ (s.addrOfInstr i).toNat + 3 < b → t.mem.read b = s.mem.read b := by
  obtain ⟨-, hmem, hres, hfpscr, -, hfpr, hmsr, htext, hcfg⟩ := exec_next_storeEffect hm h
  refine ⟨hfpr, hmsr, htext, hcfg, ?_, fun n g hn => ?_, hmem⟩
  · rw [hfpscr]
    exact Fpscr.sameControls_update ..
  · rw [hres, List.getElem?_map] at hn
    obtain ⟨r, hr, hkept⟩ := Option.map_eq_some_iff.1 hn
    rw [hr, keepReservation_eq_some hkept]

/-- Settles O20: a form that writes no register back commits its store with the general registers as they were. -/
theorem nonUpdateFrame : Obligations.NonUpdateFrame := by
  intro i s t hu hm h
  refine ⟨?_, exec_next_frame hm h⟩
  obtain ⟨-, -, rfl⟩ := exec_next h
  rw [hu, State.commitStore_gpr_none]

/-- Settles O21: an update form writes back to `x[RA]` alone. -/
theorem updateFrame : Obligations.UpdateFrame := by
  intro i ra s t hu hm h
  refine ⟨?_, exec_next_frame hm h⟩
  obtain ⟨-, -, rfl⟩ := exec_next h
  rw [hu]
  exact (State.commitStore_gprUpdated ..).2

end Sys2Proof.Machine
end

section
/-! The invariant of a run, across one step (R12, R131, R137). -/

namespace Sys2Proof.Machine

/-- From a word of the text, `pc + 4` does not wrap, is a multiple of 4 and is at most `base + 4n`: the text ends at
a multiple of 4 and at or below `2^32 - 4`. -/
theorem State.Inv.pc_add_four {s : State} (hinv : s.Inv) (hin : s.text.holds s.pc.toNat = true) :
    (s.pc + 4).toNat = s.pc.toNat + 4 ∧ (s.pc.toNat + 4) % 4 = 0 ∧ s.pc.toNat + 4 ≤ s.text.limit := by
  obtain ⟨-, ⟨hbase, hlimit⟩, halign, hlow, -⟩ := hinv
  obtain ⟨-, hbelow⟩ := Text.holds_iff.1 hin
  unfold Text.limit at hlimit ⊢
  refine ⟨?_, by omega, by omega⟩
  rw [BitVec.toNat_add_of_lt (by simp; omega)]
  rfl

/-- A completed instruction keeps memory canonical: its four bytes lie in the address space (R36). -/
theorem exec_next_mem_wf {i : Instr} {s t : State} (hm : s.mem.wf = true) (h : exec i s = .next t) :
    t.mem.wf = true := by
  obtain ⟨-, ⟨-, -, hadmits, -, -⟩, rfl⟩ := exec_next h
  rw [State.commitStore_mem]
  exact Memory.wf_writeWord _ hm (State.le_of_admits hadmits)

/-- An instruction of the text keeps the invariant. -/
theorem exec_next_inv {i : Instr} {s t : State} (hinv : s.Inv) (hin : s.text.holds s.pc.toNat = true)
    (h : exec i s = .next t) : t.Inv := by
  have ⟨hm, hrange, _, hlow, _⟩ := hinv
  obtain ⟨hpc, halign, hlimit⟩ := hinv.pc_add_four hin
  obtain ⟨-, -, -, -, htpc, -, -, htext, -⟩ := exec_next_storeEffect hm h
  refine ⟨exec_next_mem_wf hm h, ?_⟩
  rw [State.TextInRange, htext, htpc, hpc]
  exact ⟨hrange, halign, by omega, hlimit⟩

/-- Settles O45: a step that goes on fetched from inside the text and executed one instruction there. -/
theorem stepKeepsInvariant : Obligations.StepKeepsInvariant := by
  intro s t hinv h
  obtain ⟨w, i, -, hfetch, -, hexec⟩ := step_next h
  obtain ⟨hin, -, -, -⟩ := State.fetch_some hfetch
  exact exec_next_inv hinv hin hexec

end Sys2Proof.Machine
end

section
/-! FPSCR as a word (R14, D26): the record and the word are the same data, field by field. The widths of the appends
are sums in the library's lemmas and 32 in the model, so `simp` has to look for them without its index. -/

namespace Sys2Proof.Machine

/-- A bit or slice of the appended fields lies in one of the two parts at every append. -/
theorem Fpscr.ofWord_toWord (f : Fpscr) : Fpscr.ofWord f.toWord = f := by
  unfold Fpscr.ofWord Fpscr.toWord
  simp -index (disch := decide) only [BitVec.getMsbD_append, BitVec.extractLsb'_append_eq_of_le,
    BitVec.extractLsb'_append_eq_right, ↓reduceIte, Nat.reduceAdd, Nat.reduceSub, Nat.reduceLeDiff]
  simp

/-- Bit `i` from the top, as a slice of width 1. -/
theorem ofBool_getMsbD_eq_extractLsb' (w : Word) {i : Nat} (hi : i < 32) :
    BitVec.ofBool (w.getMsbD i) = w.extractLsb' (31 - i) 1 := by
  ext j hj
  obtain rfl : j = 0 := by omega
  simp [BitVec.getMsbD, hi]

/-- The fields are adjacent slices of the word, so their append is the whole word. -/
theorem Fpscr.toWord_ofWord (w : Word) : (Fpscr.ofWord w).toWord = w := by
  simp only [Fpscr.toWord, Fpscr.ofWord, ofBool_getMsbD_eq_extractLsb', Nat.reduceLT]
  simp -index only [BitVec.extractLsb'_append_extractLsb'_eq_extractLsb', Nat.reduceSub, Nat.reduceAdd]
  exact BitVec.extractLsb'_eq_self

/-- Settles O35: `Fpscr.ofWord` reads each field at its position, so the round trip of a record is the layout. -/
theorem fpscrWordLayout : Obligations.FpscrWordLayout :=
  ⟨Fpscr.ofWord_toWord, Fpscr.toWord_ofWord, fun f => Fpscr.mk.inj f.ofWord_toWord⟩

end Sys2Proof.Machine
end

section
/-! The launch state (R20). -/

namespace Sys2Proof.Machine

@[simp] theorem State.reset_readGpr (r : RegNum) : State.reset.readGpr r = 0 := by
  simp [State.readGpr, State.reset]

@[simp] theorem State.reset_readFpr (r : RegNum) : State.reset.readFpr r = 0 := by
  simp [State.readFpr, State.reset]

theorem Fpscr.reset_toWord : Fpscr.reset.toWord = 0 := by decide

/-- Settles O51: the registers are vectors of zeros, FPSCR is the zero word, the rest is as the launch state says. -/
theorem launchState : Obligations.LaunchState :=
  ⟨fun r => ⟨State.reset_readGpr r, State.reset_readFpr r⟩, rfl, rfl, Fpscr.reset_toWord, rfl, fun _ => rfl,
    rfl, rfl, rfl, rfl, rfl⟩

end Sys2Proof.Machine
end

section
/-! Memory across one instruction and one step (R32, R33, R43): where a completed store lies, and the text, which it
never reaches. -/

namespace Sys2Proof.Machine

/-- R43: a store that does not hit the text leaves every byte of the text outside its four bytes. -/
theorem State.text_outside_store {s : State} {a : Addr} {b : Nat} (h : s.hitsText a = false)
    (hlow : s.text.base.toNat ≤ b) (hhigh : b < s.text.base.toNat + 4 * s.text.len) :
    b < a.toNat ∨ a.toNat + 3 < b := by
  by_contra hinside
  have hhit : s.hitsText a = true := State.hitsText_iff.2 ⟨b - a.toNat, by omega, by omega, by omega⟩
  simp [h] at hhit

/-- Settles O48: the step executed one instruction, whose store passed the check of R43. -/
theorem programTextNeverWritten : Obligations.ProgramTextNeverWritten := by
  intro s t hm h
  obtain ⟨w, i, -, -, -, hexec⟩ := step_next h
  obtain ⟨-, ⟨-, -, -, htext, -⟩, -⟩ := exec_next hexec
  obtain ⟨-, -, hkept, -, -, -, hframe⟩ := exec_next_frame hm hexec
  exact ⟨hkept, fun b hlow hhigh => hframe b (State.text_outside_store htext hlow hhigh)⟩

/-- Settles O22: the effect of R70 on memory, at an address that was admitted. -/
theorem completedStoreIsBigEndian : Obligations.CompletedStoreIsBigEndian := by
  intro i s t hm h
  obtain ⟨-, ⟨-, -, hadmits, -, -⟩, -⟩ := exec_next h
  obtain ⟨hbytes, hframe, -⟩ := exec_next_storeEffect hm h
  refine ⟨?_, hframe, State.admits_iff.1 hadmits⟩
  rintro w rfl
  exact hbytes

/-- Settles O9: the pc lies in the text and, like its base, on a multiple of 4. -/
theorem fetchIsBigEndianWord : Obligations.FetchIsBigEndianWord := by
  intro s k hbase hk hpc
  have hin : s.text.holds s.pc.toNat = true := Text.holds_iff.2 ⟨by omega, by omega⟩
  have hpcAligned : misaligned s.pc = false := by simp [misaligned]; omega
  have hbaseAligned : misaligned s.text.base = false := by simp [misaligned, hbase]
  simp only [State.fetch, hin, hpcAligned, hbaseAligned]
  rfl

end Sys2Proof.Machine
end

section
/-! What the checks on the address decide (R34, R36, R37, R43): stuck, refused, Alignment or performed. -/

namespace Sys2Proof.Machine

/-- Past the checks on the form, the pc and `MSR.FP`, the checks on the address decide, in the order of R114. -/
theorem exec_eq_of_fpEnabled {i : Instr} {s : State} (hwf : i.wf = true) (hpc : s.pc.toNat + 4 < 2 ^ 32)
    (hfp : s.msrFp = true) :
    exec i s =
      if s.admits (s.addrOfInstr i) = false then .fault (.stuckAccess (s.addrOfInstr i))
      else if s.hitsText (s.addrOfInstr i) = true then .refused .storeToProgramText
      else if s.alignmentFaults (s.addrOfInstr i) = true then .fault (.alignment s.pc (s.addrOfInstr i))
      else .next (s.commitStore i.source (s.sumOf i) i.updates) := by
  rw [exec_eq_storeSingle hwf, storeSingle, if_neg (Nat.not_le.2 hpc), hfp]
  simp only [Bool.not_true, Bool.false_eq_true, if_false, Bool.not_eq_true']
  rfl

/-- R37: an access with an absent byte, or past the top of the address space, is not admitted. -/
theorem State.admits_eq_false {s : State} {a : Addr}
    (h : 2 ^ 32 - 4 < a.toNat ∨ ∃ k < 4, memAdmit s.cfg (a.toNat + k) = false) : s.admits a = false := by
  rw [Bool.eq_false_iff, ne_eq, State.admits_iff]
  rintro ⟨htop, hbytes⟩
  obtain habove | ⟨k, hk, habsent⟩ := h
  · omega
  · exact absurd (hbytes k hk) (by simp [habsent])

/-- Settles O26: such an access is not admitted, and admission is the first check on the address. -/
theorem unadmittedStoreIsStuck : Obligations.UnadmittedStoreIsStuck := by
  intro i s hwf hpc hfp h
  rw [exec_eq_of_fpEnabled hwf hpc hfp, if_pos (State.admits_eq_false h)]

/-- Settles O27: such a store hits the text, which is the check after admission. -/
theorem storeToProgramTextRefused : Obligations.StoreToProgramTextRefused := by
  intro i s k hwf hpc hfp hadmits hk hlow hhigh
  rw [exec_eq_of_fpEnabled hwf hpc hfp, if_neg (by simp [hadmits]),
    if_pos (State.hitsText_iff.2 ⟨k, hk, hlow, hhigh⟩)]

/-- Whether an admitted store completes or raises Alignment is `alignmentFaults` alone (R34). -/
theorem exec_of_storeAdmitted {i : Instr} {s : State} (hwf : i.wf = true) (hm : s.mem.wf = true)
    (hpc : s.pc.toNat + 4 < 2 ^ 32) (hfp : s.msrFp = true) (hadm : s.StoreAdmitted (s.addrOfInstr i)) :
    (s.alignmentFaults (s.addrOfInstr i) = false →
      ∃ t, exec i s = .next t ∧ StoreEffect s t i.source (s.addrOfInstr i)) ∧
    (s.alignmentFaults (s.addrOfInstr i) = true → exec i s = .fault (.alignment s.pc (s.addrOfInstr i))) := by
  obtain ⟨hadmits, htext⟩ := hadm
  have hexec := exec_eq_of_fpEnabled hwf hpc hfp
  simp only [hadmits, htext, Bool.true_eq_false, Bool.false_eq_true, if_false] at hexec
  constructor <;> intro hal
  · have hnext := hexec.trans (if_neg (by simp [hal]))
    exact ⟨_, hnext, exec_next_storeEffect hm hnext⟩
  · exact hexec.trans (if_pos hal)

/-- R34: the three reasons for which a store cannot raise Alignment. -/
theorem State.alignmentFaults_eq_false_of_tolerated {s : State} {a : Addr}
    (h : a.toNat % 4 = 0 ∨ (∀ k < 4, cacheInhibited s.cfg (a.toNat + k) = false) ∨ s.cfg.ciMisalign = .perform) :
    s.alignmentFaults a = false := by
  rw [Bool.eq_false_iff, ne_eq, State.alignmentFaults_iff, State.hitsInhibited_iff]
  rintro ⟨hmis, ⟨k, hk, hinh⟩, hset⟩
  obtain haligned | hcached | hperform := h
  · exact hmis haligned
  · simp [hcached k hk] at hinh
  · simp [hperform] at hset

/-- Settles O25: by whether the store raises Alignment, which under `may` either can be. -/
theorem misalignedStoresTolerated : Obligations.MisalignedStoresTolerated := by
  intro i s hwf hm hpc hfp hadm
  obtain ⟨hperformed, hfaults⟩ := exec_of_storeAdmitted hwf hm hpc hfp hadm
  refine ⟨fun h => hperformed (State.alignmentFaults_eq_false_of_tolerated h), fun _ => ?_,
    fun hset hmis hinh => ?_⟩
  · cases hal : s.alignmentFaults (s.addrOfInstr i) with
    | false => exact .inl (hperformed hal)
    | true => exact .inr (hfaults hal)
  · exact hfaults (State.alignmentFaults_iff.2 ⟨hmis, State.hitsInhibited_iff.2 hinh, .inl hset⟩)

end Sys2Proof.Machine
end

section
/-! The reservations after a completed store (R42). -/

namespace Sys2Proof.Machine

/-- R42: the granule size is a power of two and at least 4. -/
theorem granuleSize_eq_two_pow (c : Config) : granuleSize c = 2 ^ (c.granuleExp + 2) := by
  unfold granuleSize
  ring

theorem four_le_granuleSize (c : Config) : 4 ≤ granuleSize c :=
  Nat.le_mul_of_pos_right 4 (Nat.two_pow_pos _)

/-- Settles O31: the store maps `keepReservation` over the agents. -/
theorem storeClearsTouchedReservations : Obligations.StoreClearsTouchedReservations := by
  refine ⟨fun c => ⟨granuleSize_eq_two_pow c, four_le_granuleSize c⟩, fun i s t h => ?_⟩
  obtain ⟨-, -, rfl⟩ := exec_next h
  have hres : (s.commitStore i.source (s.sumOf i) i.updates).reservations =
      s.reservations.map (keepReservation s.cfg (s.addrOfInstr i)) := State.commitStore_reservations ..
  rw [hres]
  refine ⟨List.length_map _, fun n => ⟨fun hn => ?_, fun g hg => ⟨fun htouch => ?_, fun hapart => ?_⟩⟩⟩
  · rw [List.getElem?_map, hn]; rfl
  · rw [List.getElem?_map, hg, Option.map_some, (keepReservation_some _ _ g).1 htouch]
  · rw [List.getElem?_map, hg, Option.map_some, (keepReservation_some _ _ g).2 hapart]

end Sys2Proof.Machine
end

section
/-! The address is the low half of the sum (R31): the high half of a register plays no part in it. -/

namespace Sys2Proof.Machine

theorem addrOf_toNat (sum : DWord) : (addrOf sum).toNat = sum.toNat % 2 ^ 32 := by
  simp [addrOf]

/-- The low half of a sum is the sum of the low halves. -/
theorem addrOf_addressSum (b o : DWord) : addrOf (addressSum b o) = addrOf b + addrOf o := by
  apply BitVec.eq_of_toNat_eq
  simp only [addrOf_toNat, addressSum, BitVec.toNat_add]
  omega

/-- Either setting of R76 writes back a value whose low half is the address. -/
theorem addrOf_writeBackValue (c : Config) (sum : DWord) : addrOf (writeBackValue c sum) = addrOf sum := by
  unfold writeBackValue
  split
  · apply BitVec.eq_of_toNat_eq
    simp [addrOf_toNat]
  · rfl

@[simp] theorem State.writeGpr_storedWord (s : State) (r fs : RegNum) (v : DWord) :
    (s.writeGpr r v).storedWord fs = s.storedWord fs := rfl
@[simp] theorem State.writeGpr_raisedFlags (s : State) (r fs : RegNum) (v : DWord) :
    (s.writeGpr r v).raisedFlags fs = s.raisedFlags fs := rfl

/-- The committed store of a form that writes nothing back depends on the sum through the address alone. -/
theorem State.commitStore_none_writeGpr (s : State) (r : RegNum) (v : DWord) (fs : RegNum) {sum sum' : DWord}
    (h : addrOf sum' = addrOf sum) :
    (s.writeGpr r v).commitStore fs sum' none = (s.commitStore fs sum none).writeGpr r v := by
  simp only [State.commitStore, h]
  rfl

/-- What a register holds after a committed store. -/
theorem State.readGpr_commitStore (s : State) (fs : RegNum) (sum : DWord) (u : Option RegNum) (n : RegNum) :
    (s.commitStore fs sum u).readGpr n = if u = some n then writeBackValue s.cfg sum else s.readGpr n := by
  cases u with
  | none => simp [State.readGpr]
  | some ra =>
    obtain ⟨hsame, hother⟩ := State.commitStore_gprUpdated s fs ra sum
    by_cases hn : n = ra
    · rw [hn, hsame, if_pos rfl]
    · rw [hother n hn, if_neg (by simpa using Ne.symm hn)]

section
variable {s : State} {r : RegNum} {v : DWord} (hv : addrOf v = addrOf (s.readGpr r))
include hv

theorem State.addrOf_readGpr_writeGpr (n : RegNum) :
    addrOf ((s.writeGpr r v).readGpr n) = addrOf (s.readGpr n) := by
  by_cases hn : n = r
  · rw [hn, State.readGpr_writeGpr_same, hv]
  · rw [State.readGpr_writeGpr_other s v hn]

theorem State.addrOf_ra0_writeGpr (ra : RegNum) : addrOf ((s.writeGpr r v).ra0 ra) = addrOf (s.ra0 ra) := by
  unfold State.ra0
  split
  · rfl
  · exact State.addrOf_readGpr_writeGpr hv ra

theorem State.addrOfInstr_writeGpr (i : Instr) : (s.writeGpr r v).addrOfInstr i = s.addrOfInstr i := by
  unfold State.addrOfInstr State.sumOf
  rw [addrOf_addressSum, addrOf_addressSum]
  cases i with
  | stfs fs ra d => exact congrArg (· + _) (State.addrOf_ra0_writeGpr hv ra)
  | stfsu fs ra d => exact congrArg (· + _) (State.addrOf_readGpr_writeGpr hv ra)
  | stfsx fs ra rb =>
    exact congrArg₂ _ (State.addrOf_ra0_writeGpr hv ra) (State.addrOf_readGpr_writeGpr hv rb)
  | stfsux fs ra rb =>
    exact congrArg₂ _ (State.addrOf_readGpr_writeGpr hv ra) (State.addrOf_readGpr_writeGpr hv rb)

/-- With another high half in `x[r]` an instruction has the same outcome, but for what its committed store differs
by. -/
theorem exec_writeGpr_of_commitStore {i : Instr} (g : State → State)
    (hg : (s.writeGpr r v).commitStore i.source ((s.writeGpr r v).sumOf i) i.updates =
      g (s.commitStore i.source (s.sumOf i) i.updates)) :
    exec i (s.writeGpr r v) = mapNext g (exec i s) := by
  cases hwf : i.wf with
  | false => rw [exec_of_not_wf hwf, exec_of_not_wf hwf]; rfl
  | true =>
    rw [exec_eq_storeSingle hwf, exec_eq_storeSingle hwf]
    exact storeSingle_congr g (State.addrOfInstr_writeGpr hv i) rfl rfl rfl rfl rfl rfl rfl hg

/-- The low half of every register after the store is the same: it is the address in the register written back. -/
theorem State.addrOf_readGpr_commitStore_writeGpr (i : Instr) (n : RegNum) :
    addrOf (((s.writeGpr r v).commitStore i.source ((s.writeGpr r v).sumOf i) i.updates).readGpr n) =
      addrOf ((s.commitStore i.source (s.sumOf i) i.updates).readGpr n) := by
  rw [State.readGpr_commitStore, State.readGpr_commitStore]
  split
  · rw [addrOf_writeBackValue, addrOf_writeBackValue]
    exact State.addrOfInstr_writeGpr hv i
  · exact State.addrOf_readGpr_writeGpr hv n

end

/-- Settles O14: the outcome depends on the operands through the address, which is a function of their low halves, and
the committed stores write the same bytes and clear the same reservations there. -/
theorem highHalfNotInAddress : Obligations.HighHalfNotInAddress := by
  refine ⟨addrOf_toNat, fun i s r v hv => ?_⟩
  have haddr := State.addrOfInstr_writeGpr hv i
  have hexec := exec_writeGpr_of_commitStore hv (i := i) (fun _ => _) rfl
  refine ⟨fun hu => ?_, fun f hf => ?_, fun q hq => ?_, fun t ht => ?_⟩
  · refine exec_writeGpr_of_commitStore hv (fun t => t.writeGpr r v) ?_
    rw [hu]
    exact State.commitStore_none_writeGpr s r v i.source haddr
  · rw [hexec, hf, mapNext]
  · rw [hexec, hq, mapNext]
  · obtain ⟨-, -, rfl⟩ := exec_next ht
    rw [ht, mapNext] at hexec
    unfold State.addrOfInstr at haddr
    refine ⟨_, hexec, by simp [haddr], by simp [haddr], by simp, by simp, by simp, by simp, by simp, by simp,
      fun n hn hu => ?_, State.addrOf_readGpr_commitStore_writeGpr hv i⟩
    rw [State.readGpr_commitStore, State.readGpr_commitStore, if_neg hu, if_neg hu,
      State.readGpr_writeGpr_other s v hn]

end Sys2Proof.Machine
end

section
/-! The fields of a word and the assembly of one as the arithmetic of R53, and the displacement as a signed number
(R54). -/

namespace Sys2Proof

/-- Settles O3: each field and each form has its value in the laws of the decoder; the primary opcode, being topmost,
needs no remainder. -/
theorem fieldsAndAssemblyAsNumbers : Obligations.FieldsAndAssemblyAsNumbers := by
  refine ⟨fun w => ?_, fun fs ra d => ⟨dForm_toNat 52 fs ra d, dForm_toNat 53 fs ra d⟩,
    fun fs ra rb => ⟨xForm_toNat 31 fs ra rb 663 0, xForm_toNat 31 fs ra rb 695 0⟩⟩
  simp only [Nat.shiftRight_eq_div_pow]
  refine ⟨?_, fieldFs_toNat w, fieldRa_toNat w, fieldRb_toNat w, fieldXo_toNat w, fieldRc_toNat w, fieldD_toNat w⟩
  rw [fieldOpcd_toNat]
  have := w.isLt
  omega

/-- Sign extension to 64 bits keeps the signed value of the field. -/
theorem displacement_toInt (d : BitVec 16) : (Machine.displacement d).toInt = d.toInt :=
  BitVec.toInt_signExtend_of_le (by decide)

/-- Settles O12: the displacement has the signed value of the 16-bit field. -/
theorem displacementIsSigned : Obligations.DisplacementIsSigned := by
  intro w
  rw [displacement_toInt, BitVec.toInt_eq_toNat_cond, fieldD_toNat]
  split <;> split <;> omega

end Sys2Proof
end

section
/-! The decoder as a relation: what a word decodes to, said by the rows of R57. -/

namespace Sys2Proof

/-! The rows of R57, and of the X forms with bit 31 set (R58), as conditions on the fields. -/

theorem matchesRow_stfs (w : Word) : MatchesRow w (0xFC000000, 0xD0000000) ↔ fieldOpcd w = 52 :=
  matchesRow_dForm w 52

theorem matchesRow_stfsu (w : Word) : MatchesRow w (0xFC000000, 0xD4000000) ↔ fieldOpcd w = 53 :=
  matchesRow_dForm w 53

theorem matchesRow_stfsx (w : Word) :
    MatchesRow w (0xFC0007FF, 0x7C00052E) ↔ fieldOpcd w = 31 ∧ fieldXo w = 663 ∧ fieldRc w = 0 :=
  matchesRow_xForm w 31 663 0

theorem matchesRow_stfsux (w : Word) :
    MatchesRow w (0xFC0007FF, 0x7C00056E) ↔ fieldOpcd w = 31 ∧ fieldXo w = 695 ∧ fieldRc w = 0 :=
  matchesRow_xForm w 31 695 0

theorem matchesRow_stfsx_rc (w : Word) :
    MatchesRow w (0xFC0007FF, 0x7C00052F) ↔ fieldOpcd w = 31 ∧ fieldXo w = 663 ∧ fieldRc w = 1 :=
  matchesRow_xForm w 31 663 1

theorem matchesRow_stfsux_rc (w : Word) :
    MatchesRow w (0xFC0007FF, 0x7C00056F) ↔ fieldOpcd w = 31 ∧ fieldXo w = 695 ∧ fieldRc w = 1 :=
  matchesRow_xForm w 31 695 1

/-- What a word decodes to by R57, R59 and R60. -/
inductive DecodesTo (w : Word) : Decoded → Prop where
  | stfs : MatchesRow w (0xFC000000, 0xD0000000) →
      DecodesTo w (.instr (.stfs (fieldFs w) (fieldRa w) (fieldD w)))
  | stfsu : MatchesRow w (0xFC000000, 0xD4000000) → fieldRa w ≠ 0 →
      DecodesTo w (.instr (.stfsu (fieldFs w) (fieldRa w) (fieldD w)))
  | stfsx : MatchesRow w (0xFC0007FF, 0x7C00052E) →
      DecodesTo w (.instr (.stfsx (fieldFs w) (fieldRa w) (fieldRb w)))
  | stfsux : MatchesRow w (0xFC0007FF, 0x7C00056E) → fieldRa w ≠ 0 →
      DecodesTo w (.instr (.stfsux (fieldFs w) (fieldRa w) (fieldRb w)))
  | invalidForm : MatchesRow w (0xFC000000, 0xD4000000) ∨ MatchesRow w (0xFC0007FF, 0x7C00056E) →
      fieldRa w = 0 → DecodesTo w .invalidForm
  | notInSpec : (∀ row ∈ opcodeRows, ¬ MatchesRow w row) → DecodesTo w .notInSpec

/-- A word matches no row, as a condition on the fields. -/
theorem forall_not_matchesRow (w : Word) :
    (∀ row ∈ opcodeRows, ¬ MatchesRow w row) ↔
      ¬ fieldOpcd w = 52 ∧ ¬ fieldOpcd w = 53 ∧ ¬ (fieldOpcd w = 31 ∧ fieldXo w = 663 ∧ fieldRc w = 0) ∧
        ¬ (fieldOpcd w = 31 ∧ fieldXo w = 695 ∧ fieldRc w = 0) := by
  rw [← matchesRow_stfs, ← matchesRow_stfsu, ← matchesRow_stfsx, ← matchesRow_stfsux]
  simp [opcodeRows]

/-- The answer of the decoder is right by the rows. -/
theorem decodesTo_decodeWord (w : Word) : DecodesTo w (decodeWord w) := by
  unfold decodeWord
  split_ifs with hstfs hstfsu hra hstfsx hstfsux hra
  · exact .stfs ((matchesRow_stfs w).2 hstfs)
  · exact .invalidForm (.inl ((matchesRow_stfsu w).2 hstfsu)) hra
  · exact .stfsu ((matchesRow_stfsu w).2 hstfsu) hra
  · exact .stfsx ((matchesRow_stfsx w).2 hstfsx)
  · exact .invalidForm (.inr ((matchesRow_stfsux w).2 hstfsux)) hra
  · exact .stfsux ((matchesRow_stfsux w).2 hstfsux) hra
  · exact .notInSpec ((forall_not_matchesRow w).2 ⟨hstfs, hstfsu, hstfsx, hstfsux⟩)

/-- The rows leave the decoder no other answer. -/
theorem DecodesTo.decodeWord_eq {w : Word} {x : Decoded} (h : DecodesTo w x) : decodeWord w = x := by
  cases h with
  | stfs hrow =>
    rw [matchesRow_stfs] at hrow
    simp [decodeWord, hrow]
  | stfsu hrow hra =>
    rw [matchesRow_stfsu] at hrow
    simpa [decodeWord, hrow] using hra
  | stfsx hrow =>
    rw [matchesRow_stfsx] at hrow
    simp [decodeWord, hrow]
  | stfsux hrow hra =>
    rw [matchesRow_stfsux] at hrow
    simpa [decodeWord, hrow] using hra
  | invalidForm hrow hra =>
    rw [matchesRow_stfsu, matchesRow_stfsux] at hrow
    obtain hrow | hrow := hrow <;> simp [decodeWord, hrow, hra]
  | notInSpec hrows =>
    obtain ⟨hstfs, hstfsu, hstfsx, hstfsux⟩ := (forall_not_matchesRow w).1 hrows
    rw [decodeWord, if_neg hstfs, if_neg hstfsu, if_neg hstfsx, if_neg hstfsux]

theorem decodeWord_eq_iff {w : Word} {x : Decoded} : decodeWord w = x ↔ DecodesTo w x :=
  ⟨fun h => h ▸ decodesTo_decodeWord w, DecodesTo.decodeWord_eq⟩

/-! The two answers that are no instruction. -/

theorem decodeWord_eq_invalidForm_iff (w : Word) : decodeWord w = .invalidForm ↔
    (MatchesRow w (0xFC000000, 0xD4000000) ∨ MatchesRow w (0xFC0007FF, 0x7C00056E)) ∧ fieldRa w = 0 := by
  rw [decodeWord_eq_iff]
  exact ⟨fun | .invalidForm hrow hra => ⟨hrow, hra⟩, fun ⟨hrow, hra⟩ => .invalidForm hrow hra⟩

theorem decodeWord_eq_notInSpec_iff (w : Word) :
    decodeWord w = .notInSpec ↔ ∀ row ∈ opcodeRows, ¬ MatchesRow w row := by
  rw [decodeWord_eq_iff]
  exact ⟨fun | .notInSpec hrows => hrows, .notInSpec⟩

/-- R58: an X form with bit 31 set has the opcodes of a row and not its last bit. -/
theorem decodeWord_of_rc {w : Word}
    (h : MatchesRow w (0xFC0007FF, 0x7C00052F) ∨ MatchesRow w (0xFC0007FF, 0x7C00056F)) :
    decodeWord w = .notInSpec := by
  rw [decodeWord_eq_notInSpec_iff, forall_not_matchesRow]
  rw [matchesRow_stfsx_rc, matchesRow_stfsux_rc] at h
  obtain ⟨hopcd, -, hrc⟩ | ⟨hopcd, -, hrc⟩ := h <;> simp [hopcd, hrc]

end Sys2Proof
end

section
/-! The decoder and the encoder are inverse to each other (R51 to R53), and the patterns of R57 are disjoint. -/

namespace Sys2Proof

/-! An update form is well-formed when `RA` is not 0 (R59). -/

theorem Instr.wf_stfsu {fs ra : RegNum} {d : BitVec 16} : (Instr.stfsu fs ra d).wf = true ↔ ra ≠ 0 := bne_iff_ne

theorem Instr.wf_stfsux {fs ra rb : RegNum} : (Instr.stfsux fs ra rb).wf = true ↔ ra ≠ 0 := bne_iff_ne

/-! The operand fields of the word of an instruction. -/

theorem fields_encode_stfs (fs ra : RegNum) (d : BitVec 16) :
    fieldFs (encode (.stfs fs ra d)) = fs ∧ fieldRa (encode (.stfs fs ra d)) = ra ∧
    fieldD (encode (.stfs fs ra d)) = d := (fields_dForm 52 fs ra d).2

theorem fields_encode_stfsu (fs ra : RegNum) (d : BitVec 16) :
    fieldFs (encode (.stfsu fs ra d)) = fs ∧ fieldRa (encode (.stfsu fs ra d)) = ra ∧
    fieldD (encode (.stfsu fs ra d)) = d := (fields_dForm 53 fs ra d).2

theorem fields_encode_stfsx (fs ra rb : RegNum) :
    fieldFs (encode (.stfsx fs ra rb)) = fs ∧ fieldRa (encode (.stfsx fs ra rb)) = ra ∧
    fieldRb (encode (.stfsx fs ra rb)) = rb := by
  obtain ⟨-, hfs, hra, hrb, -, -⟩ := fields_xForm 31 fs ra rb 663 0
  exact ⟨hfs, hra, hrb⟩

theorem fields_encode_stfsux (fs ra rb : RegNum) :
    fieldFs (encode (.stfsux fs ra rb)) = fs ∧ fieldRa (encode (.stfsux fs ra rb)) = ra ∧
    fieldRb (encode (.stfsux fs ra rb)) = rb := by
  obtain ⟨-, hfs, hra, hrb, -, -⟩ := fields_xForm 31 fs ra rb 695 0
  exact ⟨hfs, hra, hrb⟩

/-- The word of a well-formed instruction matches its row, and its fields are the instruction's. -/
theorem decodesTo_encode {i : Instr} (hwf : i.wf = true) : DecodesTo (encode i) (.instr i) := by
  cases i with
  | stfs fs ra d =>
    obtain ⟨hfs, hra, hd⟩ := fields_encode_stfs fs ra d
    have h := DecodesTo.stfs (Laws.EncodeMatch.stfs fs ra d)
    rwa [hfs, hra, hd] at h
  | stfsu fs ra d =>
    obtain ⟨hfs, hra, hd⟩ := fields_encode_stfsu fs ra d
    have h := DecodesTo.stfsu (Laws.EncodeMatch.stfsu fs ra d)
    rw [hfs, hra, hd] at h
    exact h (Instr.wf_stfsu.1 hwf)
  | stfsx fs ra rb =>
    obtain ⟨hfs, hra, hrb⟩ := fields_encode_stfsx fs ra rb
    have h := DecodesTo.stfsx (Laws.EncodeMatch.stfsx fs ra rb)
    rwa [hfs, hra, hrb] at h
  | stfsux fs ra rb =>
    obtain ⟨hfs, hra, hrb⟩ := fields_encode_stfsux fs ra rb
    have h := DecodesTo.stfsux (Laws.EncodeMatch.stfsux fs ra rb)
    rw [hfs, hra, hrb] at h
    exact h (Instr.wf_stfsux.1 hwf)

/-- An instruction that a word decodes to is well-formed, by its row and R59. -/
theorem DecodesTo.wf {w : Word} {i : Instr} (h : DecodesTo w (.instr i)) : i.wf = true := by
  cases h with
  | stfs => rfl
  | stfsu _ hra => exact Instr.wf_stfsu.2 hra
  | stfsx => rfl
  | stfsux _ hra => exact Instr.wf_stfsux.2 hra

/-- The row fixes the opcodes and the last bit, and a word is its fields put together. -/
theorem DecodesTo.encode_eq {w : Word} {i : Instr} (h : DecodesTo w (.instr i)) : encode i = w := by
  have hd := dForm_fields w
  have hx := xForm_fields w
  cases h with
  | stfs hrow =>
    rw [(matchesRow_stfs w).1 hrow] at hd
    exact hd
  | stfsu hrow =>
    rw [(matchesRow_stfsu w).1 hrow] at hd
    exact hd
  | stfsx hrow =>
    obtain ⟨hopcd, hxo, hrc⟩ := (matchesRow_stfsx w).1 hrow
    rw [hopcd, hxo, hrc] at hx
    exact hx
  | stfsux hrow =>
    obtain ⟨hopcd, hxo, hrc⟩ := (matchesRow_stfsux w).1 hrow
    rw [hopcd, hxo, hrc] at hx
    exact hx

/-- Settles O1: the word of an instruction decodes to it by the rows. -/
theorem decodeOfEncode : Obligations.DecodeOfEncode :=
  fun _ hwf => (decodesTo_encode hwf).decodeWord_eq

/-- Settles O2, by the row that the word matches. -/
theorem encodeOfDecode : Obligations.EncodeOfDecode := by
  intro w i h
  have hrow := decodeWord_eq_iff.1 h
  exact ⟨hrow.wf, hrow.encode_eq⟩

/-- No word matches two rows: they differ in the primary or in the extended opcode. -/
theorem opcodeRows_disjoint :
    opcodeRows.Pairwise (fun r q => ∀ w : Word, ¬ (MatchesRow w r ∧ MatchesRow w q)) := by
  simp only [opcodeRows, List.pairwise_cons, List.forall_mem_cons, List.not_mem_nil, false_imp_iff,
    implies_true, List.Pairwise.nil, and_true, matchesRow_stfs, matchesRow_stfsu, matchesRow_stfsx, matchesRow_stfsux]
  refine ⟨⟨?_, ?_, ?_⟩, ⟨?_, ?_⟩, ?_⟩ <;> (intro w; rintro ⟨hr, hq⟩; simp [hr] at hq)

/-- Settles O4: by the rows, and by their disjointness. -/
theorem maskAndMatchSelect : Obligations.MaskAndMatchSelect :=
  ⟨fun _ => ⟨fun hrow => (DecodesTo.stfs hrow).decodeWord_eq,
      fun hrow hra => (DecodesTo.stfsu hrow hra).decodeWord_eq,
      fun hrow => (DecodesTo.stfsx hrow).decodeWord_eq,
      fun hrow hra => (DecodesTo.stfsux hrow hra).decodeWord_eq⟩,
    opcodeRows_disjoint, by decide⟩

/-- Settles O7, by running the decoder on the six words. -/
theorem specWordsDecode : Obligations.SpecWordsDecode := by
  unfold Obligations.SpecWordsDecode
  decide

end Sys2Proof
end

section
/-! The words the machine gives no meaning: invalid forms (R59) and words not in the spec (R58, R60). -/

namespace Sys2Proof.Machine

/-! What the step does with them. -/

section
variable {s : State} {w : Word} (he : s.ended = false) (hf : s.fetch = some w)
include he hf

theorem step_of_invalidForm (hd : decodeWord w = .invalidForm) : step s = .refused .invalidForm := by
  simp [step, he, hf, hd]

theorem step_of_notInSpec (hd : decodeWord w = .notInSpec) : step s = .refused .notInSpec := by
  simp [step, he, hf, hd]

end

/-- R59: the update forms with `RA = 0` are ill-formed, and refused whatever the state. -/
theorem exec_update_of_r0 (s : State) (fs rb : RegNum) (d : BitVec 16) :
    exec (.stfsu fs 0 d) s = .refused .invalidForm ∧ exec (.stfsux fs 0 rb) s = .refused .invalidForm :=
  ⟨exec_of_not_wf rfl s, exec_of_not_wf rfl s⟩

/-- Settles O5: by the rows; `stfsux` with `RA = RB` not 0 is well-formed, so its word decodes to it. -/
theorem invalidFormsRefused : Obligations.InvalidFormsRefused :=
  ⟨decodeWord_eq_invalidForm_iff, fun _ _ => step_of_invalidForm, fun fs rb d s => exec_update_of_r0 s fs rb d,
    fun _ _ hra => decodeOfEncode _ (Instr.wf_stfsux.2 hra)⟩

/-- Settles O6: by the rows, and by what the step does with the decoder's two other answers. -/
theorem otherWordsRefused : Obligations.OtherWordsRefused :=
  ⟨decodeWord_eq_notInSpec_iff, fun _ => decodeWord_of_rc,
    fun _ _ he hf => ⟨step_of_notInSpec he hf, step_of_invalidForm he hf⟩⟩

end Sys2Proof.Machine
end

section
/-! The base operand (R55): the literal zero, or the register `x[RA]`. -/

namespace Sys2Proof.Machine

@[simp] theorem State.ra0_zero (s : State) : s.ra0 0 = 0 := if_pos rfl

theorem State.ra0_of_ne (s : State) {ra : RegNum} (h : ra ≠ 0) : s.ra0 ra = s.readGpr ra := if_neg h

/-- A form that writes nothing back, on fixed operands, carries another value of a register along unread. -/
theorem storeSingle_none_writeGpr (fs : RegNum) (b o : DWord) (s : State) (r : RegNum) (v : DWord) :
    storeSingle fs b o none (s.writeGpr r v) = mapNext (fun t => t.writeGpr r v) (storeSingle fs b o none s) :=
  storeSingle_congr _ rfl rfl rfl rfl rfl rfl rfl rfl (State.commitStore_none_writeGpr s r v fs rfl)

/-- A well-formed instruction whose store is let pass whatever the draws say completes with the effect of R70. -/
theorem exec_of_storable {i : Instr} {s : State} (hwf : i.wf = true) (hm : s.mem.wf = true)
    (h : s.Storable (s.addrOfInstr i)) :
    ∃ t, exec i s = .next t ∧ StoreEffect s t i.source (s.addrOfInstr i) := by
  have hnext := (exec_eq_storeSingle hwf s).trans (storeSingle_of_storable h)
  exact ⟨_, hnext, exec_next_storeEffect hm hnext⟩

/-! With `RA` not 0 the non-update forms store at `x[RA]` plus their offset, as the update forms do. -/

theorem State.addrOfInstr_stfs (s : State) {ra : RegNum} (hra : ra ≠ 0) (fs : RegNum) (d : BitVec 16) :
    s.addrOfInstr (.stfs fs ra d) = addrOf (addressSum (s.readGpr ra) (displacement d)) := by
  rw [← s.ra0_of_ne hra]
  rfl

theorem State.addrOfInstr_stfsx (s : State) {ra : RegNum} (hra : ra ≠ 0) (fs rb : RegNum) :
    s.addrOfInstr (.stfsx fs ra rb) = addrOf (addressSum (s.readGpr ra) (s.readGpr rb)) := by
  rw [← s.ra0_of_ne hra]
  rfl

/-- With `RA = 0` another value in `x[0]` is carried along unread, unless it is the index. -/
theorem exec_stfsx_r0_writeGpr (s : State) (fs : RegNum) {rb : RegNum} (v : DWord) (hrb : rb ≠ 0) :
    exec (.stfsx fs 0 rb) (s.writeGpr 0 v) = mapNext (fun t => t.writeGpr 0 v) (exec (.stfsx fs 0 rb) s) := by
  show storeSingle fs 0 ((s.writeGpr 0 v).readGpr rb) none _ = _
  rw [State.readGpr_writeGpr_other s v hrb]
  exact storeSingle_none_writeGpr fs 0 (s.readGpr rb) s 0 v

/-- Settles O11: with `RA = 0` the base is a constant and `x[0]` goes unread; with `RA` not 0 the base of all four
forms is `x[RA]`. -/
theorem ra0IsLiteralZero : Obligations.Ra0IsLiteralZero := by
  refine ⟨State.ra0_zero, fun s _ => s.ra0_of_ne,
    fun s fs d v => storeSingle_none_writeGpr fs 0 (displacement d) s 0 v,
    fun s fs _ v => exec_stfsx_r0_writeGpr s fs v,
    fun s fs ra d hra hm hst => ?_, fun s fs ra rb hra hm hst => ?_,
    fun s fs rb d => exec_update_of_r0 s fs rb d⟩
  · rintro i (rfl | rfl)
    · rw [← s.addrOfInstr_stfs hra fs] at hst ⊢
      exact exec_of_storable rfl hm hst
    · exact exec_of_storable (Instr.wf_stfsu.2 hra) hm hst
  · rintro i (rfl | rfl)
    · rw [← s.addrOfInstr_stfsx hra fs] at hst ⊢
      exact exec_of_storable rfl hm hst
    · exact exec_of_storable (Instr.wf_stfsux.2 hra) hm hst

end Sys2Proof.Machine
end

section
/-! The effective-address sum (R75) and the value an update form writes back (R76). -/

namespace Sys2Proof.Machine

/-- Settles O13: the sum is the addition of the width; the examples of R75 are computed. -/
theorem addressSumModulo : Obligations.AddressSumModulo :=
  ⟨BitVec.toNat_add, by decide, by decide, by decide, by decide⟩

theorem writeBackValue_ea32Zext_toNat {c : Config} (h : c.updateWriteback = .ea32Zext) (sum : DWord) :
    (writeBackValue c sum).toNat = sum.toNat % 2 ^ 32 := by
  simp only [writeBackValue, h, BitVec.toNat_setWidth, addrOf_toNat]
  omega

theorem writeBackValue_sum64 {c : Config} (h : c.updateWriteback = .sum64) (sum : DWord) :
    writeBackValue c sum = sum := by
  simp [writeBackValue, h]

/-- The zero-extended address is the sum itself exactly when the sum has no high half. -/
theorem writeBackValue_ea32Zext_eq_iff {c : Config} (h : c.updateWriteback = .ea32Zext) (sum : DWord) :
    writeBackValue c sum = sum ↔ EaFits32 sum := by
  rw [← BitVec.toNat_inj, writeBackValue_ea32Zext_toNat h, Nat.mod_eq_iff_lt (by decide)]

/-- A sum below `2^32` is written back as it is, under either setting. -/
theorem writeBackValue_of_fits (c : Config) {sum : DWord} (h : EaFits32 sum) : writeBackValue c sum = sum := by
  cases hwb : c.updateWriteback with
  | ea32Zext => exact (writeBackValue_ea32Zext_eq_iff hwb sum).2 h
  | sum64 => exact writeBackValue_sum64 hwb sum

/-- Settles O15: `sum64` writes the sum itself back, so the two settings agree when `ea32_zext` does too. -/
theorem writeBackByConfiguration : Obligations.WriteBackByConfiguration := by
  refine fun c sum => ⟨fun h => writeBackValue_ea32Zext_toNat h sum, fun h => writeBackValue_sum64 h sum, ?_⟩
  rw [writeBackValue_sum64 (setWriteback_updateWriteback c _)]
  exact writeBackValue_ea32Zext_eq_iff (setWriteback_updateWriteback c _) sum

/-- A committed store reads the write-back setting for the value written back alone, and that is the same under both
settings when the sum fits. -/
theorem State.commitStore_setWriteback (s : State) (wb : UpdateWriteback) (fs : RegNum) {sum : DWord}
    (u : Option RegNum) (h : EaFits32 sum) :
    (s.withCfg (s.cfg.setWriteback wb)).commitStore fs sum u =
      (s.commitStore fs sum u).withCfg ((s.commitStore fs sum u).cfg.setWriteback wb) := by
  cases u with
  | none => rfl
  | some ra =>
    simp only [State.commitStore, State.writeBack_some, writeBackValue_of_fits _ h]
    rfl

/-- Settles O44: no check reads the setting, and the committed stores agree. -/
theorem writeBackSettingIrrelevantWhenSumFits : Obligations.WriteBackSettingIrrelevantWhenSumFits := by
  intro i s wb hfits
  cases hwf : i.wf with
  | false => rw [exec_of_not_wf hwf, exec_of_not_wf hwf]; rfl
  | true =>
    rw [exec_eq_storeSingle hwf, exec_eq_storeSingle hwf, State.withCfg_baseOf, State.withCfg_offsetOf]
    exact storeSingle_congr _ rfl rfl rfl rfl rfl rfl rfl rfl
      (State.commitStore_setWriteback s wb i.source i.updates hfits)

end Sys2Proof.Machine
end

section
/-! What the four instructions have in common (R70, R77): how the pc advances, when they complete, when they stop. -/

namespace Sys2Proof.Machine

/-- R77: a completed instruction advances the pc as a number. -/
theorem exec_next_pc_toNat {i : Instr} {s t : State} (h : exec i s = .next t) : t.pc.toNat = s.pc.toNat + 4 := by
  obtain ⟨-, ⟨hpc, -⟩, rfl⟩ := exec_next h
  rw [State.commitStore_pc, BitVec.toNat_add_of_lt hpc]
  rfl

/-- R77: at the top of the pc's range every well-formed instruction is refused. -/
theorem exec_of_pcOverflow {i : Instr} {s : State} (hwf : i.wf = true) (hpc : 2 ^ 32 ≤ s.pc.toNat + 4) :
    exec i s = .refused .pcOverflow :=
  (exec_eq_storeSingle hwf s).trans (if_pos hpc)

/-- Settles O28, clause by clause. -/
theorem pcAdvancesByFour : Obligations.PcAdvancesByFour :=
  ⟨fun _ _ _ => exec_next_pc_toNat, fun _ _ => exec_of_pcOverflow⟩

/-- A non-update form with a storable address completes and writes no general register (R71, R73). -/
theorem exec_nonUpdate_of_storable {i : Instr} {s : State} (hwf : i.wf = true) (hu : i.updates = none)
    (hm : s.mem.wf = true) (h : s.Storable (s.addrOfInstr i)) :
    ∃ t, exec i s = .next t ∧ StoreEffect s t i.source (s.addrOfInstr i) ∧ t.gpr = s.gpr := by
  obtain ⟨t, hexec, heffect⟩ := exec_of_storable hwf hm h
  obtain ⟨hgpr, -⟩ := nonUpdateFrame i s t hu hm hexec
  exact ⟨t, hexec, heffect, hgpr⟩

/-- An update form with a storable address completes and writes `WB` of the sum to `x[RA]` (R72, R74). -/
theorem exec_update_of_storable {i : Instr} {ra : RegNum} {s : State} (hwf : i.wf = true)
    (hu : i.updates = some ra) (hm : s.mem.wf = true) (h : s.Storable (s.addrOfInstr i)) :
    ∃ t, exec i s = .next t ∧ StoreEffect s t i.source (s.addrOfInstr i) ∧
      GprUpdated s t ra (writeBackValue s.cfg (s.sumOf i)) := by
  obtain ⟨t, hexec, heffect⟩ := exec_of_storable hwf hm h
  refine ⟨t, hexec, heffect, ?_⟩
  obtain ⟨-, -, rfl⟩ := exec_next hexec
  rw [hu]
  exact State.commitStore_gprUpdated ..

/-- R111: with `MSR.FP = 0` a well-formed instruction raises FloatingPointUnavailable. -/
theorem exec_of_fpDisabled {i : Instr} {s : State} (hwf : i.wf = true) (hpc : s.pc.toNat + 4 < 2 ^ 32)
    (hfp : s.msrFp = false) : exec i s = .fault (.floatingPointUnavailable s.pc) := by
  rw [exec_eq_storeSingle hwf, storeSingle, if_neg (Nat.not_le.2 hpc), hfp]
  rfl

/-- R36: no store above `2^32 - 4` completes. -/
theorem exec_ne_next_of_top {i : Instr} {s : State} (h : 0xFFFFFFFC < (s.addrOfInstr i).toNat) (t : State) :
    exec i s ≠ .next t := by
  intro hexec
  obtain ⟨-, ⟨-, -, hadmits, -⟩, -⟩ := exec_next hexec
  exact Nat.not_lt.2 (State.le_of_admits hadmits) h

/-- R112: Alignment is raised only for a misaligned store to cache-inhibited storage, and not under `perform`. -/
theorem exec_fault_alignment {i : Instr} {s : State} {p a : Addr} (h : exec i s = .fault (.alignment p a)) :
    misaligned a = true ∧ s.hitsInhibited a = true ∧ s.cfg.ciMisalign ≠ .perform := by
  cases hwf : i.wf with
  | false => exact absurd ((exec_of_not_wf hwf s).symm.trans h) (by simp)
  | true =>
    rw [exec_eq_storeSingle hwf] at h
    obtain ⟨hf, -⟩ | ⟨hf, -⟩ | ⟨hf, -, -, hal⟩ := storeSingle_fault_cases h
    · exact absurd hf (by simp)
    · exact absurd hf (by simp)
    · obtain ⟨-, rfl⟩ := Fault.alignment.inj hf
      obtain ⟨hmis, hinh, hset⟩ := State.alignmentFaults_iff.1 hal
      refine ⟨misaligned_iff.2 hmis, hinh, fun hperform => ?_⟩
      simp [hperform] at hset

/-- What R71 to R74 say alike of the exceptions and of admission. -/
theorem exec_stops {i : Instr} (hwf : i.wf = true) (s : State) :
    (s.pc.toNat + 4 < 2 ^ 32 → s.msrFp = false → exec i s = .fault (.floatingPointUnavailable s.pc)) ∧
    (0xFFFFFFFC < (s.addrOfInstr i).toNat → ∀ t, exec i s ≠ .next t) ∧
    (∀ p a, exec i s = .fault (.alignment p a) →
      misaligned a = true ∧ s.hitsInhibited a = true ∧ s.cfg.ciMisalign ≠ .perform) :=
  ⟨exec_of_fpDisabled hwf, exec_ne_next_of_top, fun _ _ => exec_fault_alignment⟩

end Sys2Proof.Machine
end

section
/-! The rules of `stfs`, `stfsu`, `stfsx` and `stfsux` (R71 to R74): the word of each, and the rules above at its
operands. -/

namespace Sys2Proof.Machine

/-- Settles O16: a non-update form whose base is `RA0`. -/
theorem stfsRule : Obligations.StfsRule := by
  obtain ⟨-, hword, -⟩ := fieldsAndAssemblyAsNumbers
  intro fs ra d s
  exact ⟨(hword fs ra d).1, decodeOfEncode _ rfl,
    exec_nonUpdate_of_storable (i := .stfs fs ra d) rfl rfl, exec_stops (i := .stfs fs ra d) rfl s⟩

/-- Settles O17: an update form, well-formed when `RA` is not 0. -/
theorem stfsuRule : Obligations.StfsuRule := by
  obtain ⟨-, hword, -⟩ := fieldsAndAssemblyAsNumbers
  refine fun fs ra d s => ⟨(hword fs ra d).2, ?_, fun hra => ?_⟩
  · rintro rfl
    exact exec_of_not_wf rfl s
  · have hwf : (Instr.stfsu fs ra d).wf = true := Instr.wf_stfsu.2 hra
    exact ⟨decodeOfEncode _ hwf, exec_update_of_storable (i := .stfsu fs ra d) hwf rfl, exec_stops hwf s⟩

/-- Settles O18: a non-update form whose offset is `x[RB]`. -/
theorem stfsxRule : Obligations.StfsxRule := by
  obtain ⟨-, -, hword⟩ := fieldsAndAssemblyAsNumbers
  refine fun fs ra rb s => ⟨?_, decodeOfEncode _ rfl,
    exec_nonUpdate_of_storable (i := .stfsx fs ra rb) rfl rfl, exec_stops (i := .stfsx fs ra rb) rfl s⟩
  rw [(hword fs ra rb).1]
  omega

/-- Settles O19: an update form whose offset is `x[RB]`; the sum of `x[RA]` with itself is its double. -/
theorem stfsuxRule : Obligations.StfsuxRule := by
  obtain ⟨-, -, hword⟩ := fieldsAndAssemblyAsNumbers
  refine fun fs ra rb s => ⟨?_, ?_, fun hra => ?_⟩
  · rw [(hword fs ra rb).2]
    omega
  · rintro rfl
    exact exec_of_not_wf rfl s
  · have hwf : (Instr.stfsux fs ra rb).wf = true := Instr.wf_stfsux.2 hra
    refine ⟨decodeOfEncode _ hwf, exec_update_of_storable (i := .stfsux fs ra rb) hwf rfl, ?_, exec_stops hwf s⟩
    rintro rfl
    exact (two_mul _).symm

end Sys2Proof.Machine
end

section
/-! What `FpscrUpdate` does to each of the four flags (R102). -/

namespace Sys2Proof.Machine

theorem Fpscr.flag_raise (f : Fpscr) (raised : NarrowFlag → Bool) (b : NarrowFlag) :
    (f.raise raised).flag b = (f.flag b || raised b) := by
  cases b <;> rfl

theorem Fpscr.flag_withSummary (f : Fpscr) (v : SummaryBits) (b : NarrowFlag) :
    (f.withSummary v).flag b = f.flag b := by
  cases b <;> rfl

@[simp] theorem Fpscr.update_nil (f : Fpscr) (p : FpscrPolicy) (draw : Nat) : f.update p [] draw = f := if_pos rfl

theorem Fpscr.update_unchanged (f : Fpscr) (flags : List NarrowFlag) (draw : Nat) :
    f.update .unchanged flags draw = f := ite_self f

/-- Whether a policy sets a raised flag (R102). -/
def policySets : FpscrPolicy → Nat → NarrowFlag → Bool
  | .unchanged, _, _ => false
  | .ieeeFlags, _, _ => true
  | .maySet, draw, b => Config.drawFlagSet draw b

/-- Under every policy a raised flag is set or kept, as the policy says, and any other is kept. -/
theorem Fpscr.flag_update (f : Fpscr) (p : FpscrPolicy) (flags : List NarrowFlag) (draw : Nat) (b : NarrowFlag) :
    (f.update p flags draw).flag b = (f.flag b || decide (b ∈ flags) && policySets p draw b) := by
  by_cases h : flags = []
  · simp [h]
  · cases p <;> simp [Fpscr.update, h, Fpscr.flag_withSummary, Fpscr.flag_raise, policySets]

/-- Settles O32, a policy at a time. -/
theorem fpscrUpdateByPolicy : Obligations.FpscrUpdateByPolicy := by
  intro f p flags k
  refine ⟨?_, ?_, ?_, ?_, Fpscr.sameControls_update f p flags k⟩
  · rintro rfl
    exact Fpscr.update_nil f p k
  · rintro rfl
    exact Fpscr.update_unchanged f flags k
  · rintro rfl b
    rw [Fpscr.flag_update, policySets, Bool.and_true]
  · rintro rfl b
    rw [Fpscr.flag_update]
    refine ⟨fun hb => ?_, fun hb => by simp [hb]⟩
    cases policySets .maySet k b <;> simp [hb]

end Sys2Proof.Machine
end

section
/-! Two runs of one instruction in states that differ in what no check reads: FPSCR, the doubles, `cfg.sfd` and
`cfg.fpscrPolicy` among it. -/

namespace Sys2Proof.Machine

/-- The sum of an instruction reads the general registers alone (R75, R78). -/
theorem State.sumOf_congr {s s' : State} (h : s'.gpr = s.gpr) (i : Instr) : s'.sumOf i = s.sumOf i := by
  have hread : s'.readGpr = s.readGpr := by
    funext r
    simp only [State.readGpr, h]
  have hra0 : s'.ra0 = s.ra0 := by
    funext r
    rw [State.ra0, State.ra0, hread]
  cases i <;> simp only [State.sumOf, State.baseOf, State.offsetOf, hread, hra0]

/-- Two states agree on all that the operands (R78) and the checks (R114) of an instruction read. -/
structure State.AgreeOnChecks (s s' : State) : Prop where
  gpr : s'.gpr = s.gpr
  pc : s'.pc = s.pc
  msrFp : s'.msrFp = s.msrFp
  text : s'.text = s.text
  absent : s'.cfg.absent = s.cfg.absent
  inhibited : s'.cfg.inhibited = s.cfg.inhibited
  ciMisalign : s'.cfg.ciMisalign = s.cfg.ciMisalign
  draws : s'.draws = s.draws

/-- In two such states an instruction has the same outcome, but for `g` where the committed stores are the same but
for `g`. -/
theorem State.AgreeOnChecks.exec_eq {i : Instr} {s s' : State} (h : s.AgreeOnChecks s') (g : State → State)
    (hg : s'.commitStore i.source (s.sumOf i) i.updates = g (s.commitStore i.source (s.sumOf i) i.updates)) :
    exec i s' = mapNext g (exec i s) := by
  have hsum := State.sumOf_congr h.gpr i
  cases hwf : i.wf with
  | false => rw [exec_of_not_wf hwf, exec_of_not_wf hwf]; rfl
  | true =>
    rw [exec_eq_storeSingle hwf, exec_eq_storeSingle hwf]
    refine storeSingle_congr g (congrArg addrOf hsum) h.pc h.msrFp h.text h.absent h.inhibited h.ciMisalign h.draws ?_
    exact (congrArg (s'.commitStore i.source · i.updates) hsum).trans hg

/-- The general registers after a committed store come from those before it and the write-back setting (R76). -/
theorem State.commitStore_gpr_congr {s s' : State} (hgpr : s'.gpr = s.gpr)
    (hwb : s'.cfg.updateWriteback = s.cfg.updateWriteback) (fs : RegNum) (sum : DWord) (u : Option RegNum) :
    (s'.commitStore fs sum u).gpr = (s.commitStore fs sum u).gpr := by
  cases u with
  | none => simp [hgpr]
  | some ra => simp [hgpr, writeBackValue, hwb]

/-- Settles O34: neither a check nor the write-back reads FPSCR or a double. -/
theorem flagsNeverStopStore : Obligations.FlagsNeverStopStore := by
  intro i s s' hgpr hpc hfp htext hcfg hdraws
  have hagree : s.AgreeOnChecks s' :=
    ⟨hgpr, hpc, hfp, htext, congrArg _ hcfg, congrArg _ hcfg, congrArg _ hcfg, hdraws⟩
  have hexec := hagree.exec_eq (i := i) (fun _ => _) rfl
  refine ⟨fun t ht => ?_, fun e he => ?_, fun r hr => ?_⟩
  · rw [ht, mapNext] at hexec
    obtain ⟨-, -, rfl⟩ := exec_next ht
    exact ⟨_, hexec, State.commitStore_gpr_congr hgpr (congrArg _ hcfg) _ _ _, by simp [hpc]⟩
  · rw [hexec, he, mapNext]
  · rw [hexec, hr, mapNext]

/-- Settles O43: `cfg.sfd` is read for the stored word alone, which is written to the four bytes at the address. -/
theorem conversionDecidesOnlyStoredBytes : Obligations.ConversionDecidesOnlyStoredBytes := by
  intro i s t c ht
  have hagree : s.AgreeOnChecks (s.withCfg (s.cfg.setSfd c)) := ⟨rfl, rfl, rfl, rfl, rfl, rfl, rfl, rfl⟩
  have hexec := hagree.exec_eq (i := i) (fun _ => _) rfl
  rw [ht, mapNext] at hexec
  obtain ⟨-, ⟨-, -, hadmits, -⟩, rfl⟩ := exec_next ht
  refine ⟨_, hexec, ?_, by simp, by simp, by simp, ?_, ?_, by simp, ?_⟩
  · exact State.commitStore_gpr_congr hagree.gpr (setSfd_updateWriteback s.cfg c) _ _ _
  · simp [State.raisedFlags, State.readFpr]
  · simp [keepReservation_congr (setSfd_granuleExp s.cfg c)]
  · intro hm b hb
    have ha := State.le_of_admits hadmits
    have hframe := fun w => (Memory.read_writeWord w hm ha).2 b hb
    rw [State.commitStore_mem, State.commitStore_mem, State.withCfg_mem]
    exact (hframe _).trans (hframe _).symm

end Sys2Proof.Machine
end

section
/-! The words of the conversion as a sign and magnitude bits, and the fields of a double as numbers (R91). -/

namespace Sys2Proof.Machine

theorem dSign_toNat (x : DWord) : (dSign x).toNat = x.toNat / 2 ^ 63 := by
  rw [dSign, BitVec.extractLsb'_toNat, Nat.shiftRight_eq_div_pow]
  omega

theorem dExp_eq (x : DWord) : dExp x = x.toNat / 2 ^ 52 % 2 ^ 11 := by
  rw [dExp, BitVec.extractLsb'_toNat, Nat.shiftRight_eq_div_pow]

theorem dFrac_eq (x : DWord) : dFrac x = x.toNat % 2 ^ 52 := by
  rw [dFrac, BitVec.extractLsb'_toNat, Nat.shiftRight_zero]

/-- A double is its three fields put together. -/
theorem toNat_eq_fields (x : DWord) : x.toNat = (dSign x).toNat * 2 ^ 63 + dExp x * 2 ^ 52 + dFrac x := by
  rw [dSign_toNat, dExp_eq, dFrac_eq]
  omega

/-- The top 23 bits of the fraction, which a single keeps. -/
theorem toNat_extract_frac (x : DWord) : (x.extractLsb' 29 23).toNat = dFrac x / 2 ^ 29 := by
  rw [BitVec.extractLsb'_toNat, Nat.shiftRight_eq_div_pow, dFrac_eq]
  omega

theorem extract_low_eq_zero_iff (x : DWord) : x.extractLsb' 0 29 = 0 ↔ dFrac x % 2 ^ 29 = 0 := by
  have hslice : (x.extractLsb' 0 29).toNat = dFrac x % 2 ^ 29 := by
    rw [BitVec.extractLsb'_toNat, Nat.shiftRight_zero, dFrac_eq]
    omega
  rw [← BitVec.toNat_inj, hslice]
  rfl

theorem toNat_single (s : BitVec 1) (m : Nat) : (single s m).toNat = s.toNat * 2 ^ 31 + m % 2 ^ 31 := by
  rw [single, toNat_append_eq, BitVec.toNat_ofNat]

/-- A word in the fields of R91 has as magnitude bits its exponent and fraction. -/
theorem append_eq_single (s : BitVec 1) (e : BitVec 8) (f : BitVec 23) :
    (s ++ e ++ f : Word) = single s (e.toNat * 2 ^ 23 + f.toNat) := by
  apply BitVec.eq_of_toNat_eq
  rw [toNat_single]
  refine (toNat_append_eq (s ++ e) f).trans ?_
  rw [toNat_append_eq]
  omega

/-- Infinity in the fields of R91. -/
theorem append_eq_single_infMag (s : BitVec 1) : (s ++ 0xFF#8 ++ 0#23 : Word) = single s infMag :=
  append_eq_single s _ _

/-- A subnormal single, whose exponent field is 0, in the fields of R91. -/
theorem append_eq_single_subnormal (s : BitVec 1) (f : BitVec 23) :
    (s ++ 0#8 ++ f : Word) = single s f.toNat := by
  simp [append_eq_single]

/-- A quieted NaN is infinity's magnitude with bit 22 and the kept payload (R95). -/
theorem quietNan_eq_single (x : DWord) :
    quietNan x = single (dSign x) (infMag + 2 ^ 22 + dFrac x / 2 ^ 29 % 2 ^ 22) := by
  have hpayload : (x.extractLsb' 29 22).toNat = dFrac x / 2 ^ 29 % 2 ^ 22 := by
    rw [BitVec.extractLsb'_toNat, Nat.shiftRight_eq_div_pow, dFrac_eq]
    omega
  apply BitVec.eq_of_toNat_eq
  rw [toNat_single, quietNan]
  refine (toNat_append_eq ..).trans ?_
  rw [toNat_append_eq, toNat_append_eq, hpayload, infMag]
  simp only [BitVec.toNat_ofNat]
  omega

/-- `x[63:62] || x[58:29]`: the bits `SFD_arch` selects (R101), which are the word of R92 throughout the common core. -/
def selectedBits (x : DWord) : Word := x.extractLsb' 62 2 ++ x.extractLsb' 29 30

theorem selectedBits_eq_single (x : DWord) :
    selectedBits x =
      single (dSign x) (dExp x / 2 ^ 10 * 2 ^ 30 + dExp x % 2 ^ 7 * 2 ^ 23 + dFrac x / 2 ^ 29) := by
  have hsign := (dSign x).isLt
  have hexp := Narrowing.dExp_lt x
  have hfrac := Narrowing.dFrac_lt x
  apply BitVec.eq_of_toNat_eq
  refine (toNat_append_eq ..).trans ?_
  rw [toNat_single, BitVec.extractLsb'_toNat, BitVec.extractLsb'_toNat, Nat.shiftRight_eq_div_pow,
    Nat.shiftRight_eq_div_pow, toNat_eq_fields]
  generalize (dSign x).toNat = s at *
  generalize dExp x = e at *
  generalize dFrac x = f at *
  have htop : (s * 2 ^ 63 + e * 2 ^ 52 + f) / 2 ^ 62 % 2 ^ 2 = s * 2 + e / 2 ^ 10 := by omega
  have hlow : (s * 2 ^ 63 + e * 2 ^ 52 + f) / 2 ^ 29 % 2 ^ 30 = e % 2 ^ 7 * 2 ^ 23 + f / 2 ^ 29 := by omega
  omega

/-- On a normal double in the range of a single the selected bits rebias the exponent and truncate the fraction. -/
theorem selectedBits_of_normal {x : DWord} (h1 : 897 ≤ dExp x) (h2 : dExp x ≤ 1150) :
    selectedBits x = single (dSign x) ((dExp x - 896) * 2 ^ 23 + dFrac x / 2 ^ 29) := by
  have hmag : dExp x / 2 ^ 10 * 2 ^ 30 + dExp x % 2 ^ 7 * 2 ^ 23 = (dExp x - 896) * 2 ^ 23 := by omega
  rw [selectedBits_eq_single, hmag]

/-! The classes of R91 as numbers. -/

theorem dIsZero_iff {x : DWord} : dIsZero x = true ↔ dExp x = 0 ∧ dFrac x = 0 := by
  simp [dIsZero]

theorem dIsInf_iff {x : DWord} : dIsInf x = true ↔ dExp x = 2047 ∧ dFrac x = 0 := by
  simp [dIsInf]

theorem dIsNan_iff {x : DWord} : dIsNan x = true ↔ dExp x = 2047 ∧ dFrac x ≠ 0 := by
  simp [dIsNan]

theorem getLsbD_51_iff {x : DWord} : x.getLsbD 51 = true ↔ 2 ^ 51 ≤ dFrac x := by
  rw [BitVec.getLsbD, Nat.testBit_eq_decide_div_mod_eq, decide_eq_true_eq, dFrac_eq]
  omega

theorem dIsQuietNan_iff {x : DWord} : dIsQuietNan x = true ↔ dExp x = 2047 ∧ 2 ^ 51 ≤ dFrac x := by
  rw [dIsQuietNan, Bool.and_eq_true, dIsNan_iff, getLsbD_51_iff]
  omega

/-- A double with an exponent strictly between the two ends is finite and no zero. -/
theorem finite_of_dExp {x : DWord} (h1 : 0 < dExp x) (h2 : dExp x < 2047) : Narrowing.Finite x := by
  refine ⟨?_, ?_, ?_⟩ <;> rw [Bool.eq_false_iff, ne_eq]
  · rw [dIsNan_iff]; omega
  · rw [dIsInf_iff]; omega
  · rw [dIsZero_iff]; omega

/-! The selected bits of each class of the common core. -/

theorem selectedBits_of_zero {x : DWord} (h : dIsZero x = true) : selectedBits x = single (dSign x) 0 := by
  obtain ⟨he, hf⟩ := dIsZero_iff.1 h
  rw [selectedBits_eq_single, he, hf]
  rfl

theorem selectedBits_of_inf {x : DWord} (h : dIsInf x = true) : selectedBits x = single (dSign x) infMag := by
  obtain ⟨he, hf⟩ := dIsInf_iff.1 h
  rw [selectedBits_eq_single, he, hf]
  rfl

/-- A quiet NaN is quiet already, so that R95 keeps its top bits. -/
theorem selectedBits_of_quietNan {x : DWord} (h : dIsQuietNan x = true) : selectedBits x = quietNan x := by
  obtain ⟨he, hf⟩ := dIsQuietNan_iff.1 h
  have hmag : 2 ^ 22 + dFrac x / 2 ^ 29 % 2 ^ 22 = dFrac x / 2 ^ 29 := by
    have := Narrowing.dFrac_lt x
    omega
  rw [selectedBits_eq_single, quietNan_eq_single, he, Nat.add_assoc infMag, hmag]
  rfl

end Sys2Proof.Machine
end

section
/-! `SFD_rn` and the flags, an equation per class and per case of R99, and how they depend on the modes. -/

namespace Sys2Proof.Machine

variable {x : DWord} {rn : BitVec 2} {ni : Bool} {k : Nat}

theorem not_nan_of_inf (h : dIsInf x = true) : dIsNan x = false := by
  rw [Bool.eq_false_iff, ne_eq, dIsNan_iff]
  exact fun hn => hn.2 (dIsInf_iff.1 h).2

theorem not_nan_of_zero (h : dIsZero x = true) : dIsNan x = false := by
  rw [Bool.eq_false_iff, ne_eq, dIsNan_iff]
  exact fun hn => hn.2 (dIsZero_iff.1 h).2

theorem not_inf_of_zero (h : dIsZero x = true) : dIsInf x = false := by
  rw [Bool.eq_false_iff, ne_eq, dIsInf_iff, (dIsZero_iff.1 h).1]
  omega

theorem sfdRn_of_nan (h : dIsNan x = true) : sfdRn x rn ni = quietNan x := if_pos h

theorem sfdRn_of_inf (h : dIsInf x = true) : sfdRn x rn ni = single (dSign x) infMag := by
  simp [sfdRn, not_nan_of_inf h, h]

theorem sfdRn_of_zero (h : dIsZero x = true) : sfdRn x rn ni = single (dSign x) 0 := by
  simp [sfdRn, not_nan_of_zero h, not_inf_of_zero h, h]

/-- What is left of `SFD_rn` for a finite double that is not zero: overflow, flush or the rounded magnitude. -/
theorem sfdRn_of_finite (h : Narrowing.Finite x) (rn : BitVec 2) (ni : Bool) :
    sfdRn x rn ni =
      if infMag ≤ roundedMag x rn then overflowWord (dSign x) rn
      else if flushes ni (roundedMag x rn) = true then single (dSign x) 0
      else single (dSign x) (roundedMag x rn) := by
  obtain ⟨hnan, hinf, hzero⟩ := h
  simp only [sfdRn, hnan, hinf, hzero, Bool.false_eq_true, if_false]

/-- `NI` is read for the flush alone (R97). -/
theorem sfdRn_congr_ni {ni' : Bool} (h : flushes ni' (roundedMag x rn) = flushes ni (roundedMag x rn)) :
    sfdRn x rn ni' = sfdRn x rn ni := by
  simp only [sfdRn, h]

/-- What `SFD_rn` adds to the kept bits: `RU(lo, rem, k)` of R99. -/
def increment (x : DWord) (rn : BitVec 2) : Nat :=
  roundUp rn (dSign x) (keptBits x) (remainderBits x) (droppedBits x)

/-- Nothing is rounded up when nothing is dropped (R94). -/
theorem increment_of_exact (h : remainderBits x = 0) (rn : BitVec 2) : increment x rn = 0 := if_pos h

/-- Nothing is rounded up toward zero (R94). -/
theorem increment_towardZero (x : DWord) : increment x 1 = 0 := by
  simp [increment, roundUp]

theorem roundedMag_of_increment_eq_zero (h : increment x rn = 0) :
    roundedMag x rn = (dExp x - 897) * 2 ^ 23 + keptBits x := by
  rw [roundedMag, ← increment, h, Nat.add_zero]

/-- With `NI = 0` nothing is flushed (R97). -/
theorem flushes_false (m : Nat) : flushes false m = false := rfl

theorem flushes_eq_false_of_le {m : Nat} (h : minNormalMag ≤ m) : flushes ni m = false := by
  simp [flushes, h]

theorem mem_narrowingFlags {b : NarrowFlag} : b ∈ narrowingFlags x rn ni k ↔ narrowingFlag x rn ni k b = true := by
  cases b <;> simp [narrowingFlags]

theorem mem_narrowingFlags_of_nan (h : dIsNan x = true) (b : NarrowFlag) :
    b ∈ narrowingFlags x rn ni k ↔ dIsSignallingNan x = true ∧ b = .vxsnan := by
  rw [mem_narrowingFlags, narrowingFlag, if_pos h, Bool.and_eq_true, beq_iff_eq]

theorem dIsNan_of_quiet (h : dIsQuietNan x = true) : dIsNan x = true := (Bool.and_eq_true_iff.1 h).1

theorem dIsNan_of_signalling (h : dIsSignallingNan x = true) : dIsNan x = true := (Bool.and_eq_true_iff.1 h).1

/-- A NaN is quiet or signalling, not both. -/
theorem not_signalling_of_quiet (h : dIsQuietNan x = true) : dIsSignallingNan x = false := by
  simp only [dIsQuietNan, Bool.and_eq_true] at h
  simp [dIsSignallingNan, h]

theorem narrowingFlags_of_quietNan (h : dIsQuietNan x = true) : narrowingFlags x rn ni k = [] := by
  refine List.eq_nil_iff_forall_not_mem.2 fun b => ?_
  rw [mem_narrowingFlags_of_nan (dIsNan_of_quiet h), not_signalling_of_quiet h]
  simp

theorem narrowingFlags_of_inf (h : dIsInf x = true) : narrowingFlags x rn ni k = [] := by
  simp [narrowingFlags, narrowingFlag, not_nan_of_inf h, h]

theorem narrowingFlags_of_zero (h : dIsZero x = true) : narrowingFlags x rn ni k = [] := by
  simp [narrowingFlags, narrowingFlag, not_nan_of_zero h, h]

/-- What is left of R98 for a finite double that is not zero. -/
theorem narrowingFlag_of_finite (h : Narrowing.Finite x) (b : NarrowFlag) :
    narrowingFlag x rn ni k b =
      if infMag ≤ roundedMag x rn then b == .ox || b == .xx
      else if flushes ni (roundedMag x rn) = true then (b == .ux || b == .xx) && Config.drawFlushFlag k b
      else if remainderBits x = 0 then false
      else if 897 ≤ dExp x then b == .xx
      else b == .xx || b == .ux := by
  obtain ⟨hnan, hinf, hzero⟩ := h
  simp only [narrowingFlag, hnan, hinf, hzero, Bool.or_self, Bool.false_eq_true, if_false]

end Sys2Proof.Machine
end

section
/-! The common core of R92: every conversion stores the selected bits, and nothing is raised. -/

namespace Sys2Proof.Machine

section
variable {x : DWord} {rn : BitVec 2} {ni : Bool} {k : Nat}

theorem keptBits_of_normal (h : 897 ≤ dExp x) : keptBits x = 2 ^ 23 + dFrac x / 2 ^ 29 := by
  have hsig : significand x = 2 ^ 52 + dFrac x := if_neg (by omega)
  rw [keptBits, hsig, droppedBits, if_pos h]
  omega

theorem remainderBits_of_normal (h : 897 ≤ dExp x) : remainderBits x = dFrac x % 2 ^ 29 := by
  have hsig : significand x = 2 ^ 52 + dFrac x := if_neg (by omega)
  rw [remainderBits, hsig, droppedBits, if_pos h]
  omega

section
variable (h1 : 897 ≤ dExp x) (hup : increment x rn = 0)
include h1 hup

theorem roundedMag_of_normal : roundedMag x rn = (dExp x - 896) * 2 ^ 23 + dFrac x / 2 ^ 29 := by
  rw [roundedMag_of_increment_eq_zero hup, keptBits_of_normal h1]
  omega

variable (h2 : dExp x ≤ 1150)
include h2

/-- A normal double that is not rounded up neither overflows nor falls below `MINN`. -/
theorem roundedMag_bounds_of_normal : minNormalMag ≤ roundedMag x rn ∧ roundedMag x rn < infMag := by
  have := Narrowing.dFrac_lt x
  rw [roundedMag_of_normal h1 hup, minNormalMag, infMag]
  omega

/-- On a normal double that is not rounded up `SFD_rn` selects bits. -/
theorem sfdRn_of_normal : sfdRn x rn ni = selectedBits x := by
  obtain ⟨hge, hlt⟩ := roundedMag_bounds_of_normal h1 hup h2
  rw [sfdRn_of_finite (finite_of_dExp (by omega) (by omega)), if_neg (Nat.not_le.2 hlt),
    flushes_eq_false_of_le hge, if_neg Bool.false_ne_true, roundedMag_of_normal h1 hup,
    selectedBits_of_normal h1 h2]

end

theorem sfdArch_of_selects (h : 896 < dExp x ∨ dIsZero x = true) : sfdArch x k = selectedBits x := if_pos h

/-- The common core: the four classes in which R92 fixes the word. -/
inductive InCommonCore (x : DWord) : Prop where
  | zero (h : dIsZero x = true)
  | inf (h : dIsInf x = true)
  | normal (h1 : 897 ≤ dExp x) (h2 : dExp x ≤ 1150) (h3 : x.extractLsb' 0 29 = 0)
  | quietNan (h : dIsQuietNan x = true)

/-- In the common core the exponent is above 896 or the double is a zero, so that `SFD_arch` selects bits. -/
theorem InCommonCore.sfdArch_eq (h : InCommonCore x) : sfdArch x k = selectedBits x := by
  apply sfdArch_of_selects
  cases h with
  | zero h => exact .inr h
  | inf h => exact .inl (by rw [(dIsInf_iff.1 h).1]; decide)
  | normal h1 _ _ => exact .inl h1
  | quietNan h => exact .inl (by rw [(dIsQuietNan_iff.1 h).1]; decide)

theorem remainderBits_of_low_zero (h1 : 897 ≤ dExp x) (h3 : x.extractLsb' 0 29 = 0) : remainderBits x = 0 := by
  rw [remainderBits_of_normal h1, (extract_low_eq_zero_iff x).1 h3]

theorem InCommonCore.sfdRn_eq (h : InCommonCore x) : sfdRn x rn ni = selectedBits x := by
  cases h with
  | zero h => rw [sfdRn_of_zero h, selectedBits_of_zero h]
  | inf h => rw [sfdRn_of_inf h, selectedBits_of_inf h]
  | normal h1 h2 h3 => exact sfdRn_of_normal h1 (increment_of_exact (remainderBits_of_low_zero h1 h3) rn) h2
  | quietNan h => rw [sfdRn_of_nan (dIsNan_of_quiet h), selectedBits_of_quietNan h]

theorem InCommonCore.narrowingFlags_eq_nil (h : InCommonCore x) : narrowingFlags x rn ni k = [] := by
  cases h with
  | zero h => exact narrowingFlags_of_zero h
  | inf h => exact narrowingFlags_of_inf h
  | normal h1 h2 h3 =>
    have hrem := remainderBits_of_low_zero h1 h3
    obtain ⟨hge, hlt⟩ := roundedMag_bounds_of_normal h1 (increment_of_exact hrem rn) h2
    refine List.eq_nil_iff_forall_not_mem.2 fun b => ?_
    rw [mem_narrowingFlags, narrowingFlag_of_finite (finite_of_dExp (by omega) (by omega)),
      if_neg (Nat.not_le.2 hlt), flushes_eq_false_of_le hge, if_neg Bool.false_ne_true, if_pos hrem]
    exact Bool.false_ne_true
  | quietNan h => exact narrowingFlags_of_quietNan h

/-! The word as R92 writes it, class by class. -/

theorem selectedBits_of_zero_fields (h : dIsZero x = true) : selectedBits x = dSign x ++ 0#31 :=
  selectedBits_of_zero h

theorem selectedBits_of_inf_fields (h : dIsInf x = true) : selectedBits x = dSign x ++ 0xFF#8 ++ 0#23 := by
  rw [selectedBits_of_inf h, append_eq_single_infMag]

theorem selectedBits_of_normal_fields (h1 : 897 ≤ dExp x) (h2 : dExp x ≤ 1150) :
    selectedBits x = dSign x ++ BitVec.ofNat 8 (dExp x - 896) ++ x.extractLsb' 29 23 := by
  rw [append_eq_single, toNat_extract_frac, BitVec.toNat_ofNat, Nat.mod_eq_of_lt (by omega),
    selectedBits_of_normal h1 h2]

theorem selectedBits_of_quietNan_fields (h : dIsQuietNan x = true) :
    selectedBits x = dSign x ++ 0xFF#8 ++ x.extractLsb' 29 23 := by
  rw [append_eq_single, toNat_extract_frac, selectedBits_eq_single, (dIsQuietNan_iff.1 h).1]
  rfl

/-- In the common core `SFD_exact` is the selected bits. -/
theorem InCommonCore.sfdExact_eq (h : InCommonCore x) : sfdExact x = some (selectedBits x) := by
  unfold sfdExact
  split_ifs with hzero hinf hnormal hquiet
  · rw [selectedBits_of_zero_fields hzero]
  · rw [selectedBits_of_inf_fields hinf]
  · rw [selectedBits_of_normal_fields hnormal.1 hnormal.2.1]
  · rw [selectedBits_of_quietNan_fields hquiet]
  · cases h with
    | zero h => exact absurd h hzero
    | inf h => exact absurd h hinf
    | normal h1 h2 h3 => exact absurd ⟨h1, h2, h3⟩ hnormal
    | quietNan h => exact absurd h hquiet

/-- `SFD_exact` is defined in the common core alone. -/
theorem inCommonCore_of_isSome (h : (sfdExact x).isSome = true) : InCommonCore x := by
  unfold sfdExact at h
  split_ifs at h with hzero hinf hnormal hquiet
  · exact .zero hzero
  · exact .inf hinf
  · exact .normal hnormal.1 hnormal.2.1 hnormal.2.2
  · exact .quietNan hquiet
  · exact absurd h Bool.false_ne_true

theorem InCommonCore.sfdOther_eq (h : InCommonCore x) : sfdOther x rn ni = selectedBits x := by
  rw [sfdOther, h.sfdExact_eq]

/-- In the common core every setting of `cfg.sfd` stores the selected bits. -/
theorem InCommonCore.singleFromDouble_eq (h : InCommonCore x) (c : SfdInstance) :
    singleFromDouble c x rn ni k = selectedBits x := by
  cases c with
  | rn => exact h.sfdRn_eq
  | rne => exact h.sfdRn_eq
  | arch => exact h.sfdArch_eq
  | other => exact h.sfdOther_eq

end

/-- A committed store of a source in the common core reads neither `cfg.sfd` nor `cfg.fpscrPolicy`. -/
theorem State.commitStore_setSfd_setPolicy (s : State) (c : SfdInstance) (p : FpscrPolicy) {fs : RegNum} (sum : DWord)
    (u : Option RegNum) (h : InCommonCore (s.readFpr fs)) :
    (s.withCfg ((s.cfg.setSfd c).setPolicy p)).commitStore fs sum u =
      (s.commitStore fs sum u).withCfg (((s.commitStore fs sum u).cfg.setSfd c).setPolicy p) := by
  have hword : (s.withCfg ((s.cfg.setSfd c).setPolicy p)).storedWord fs = s.storedWord fs :=
    (h.singleFromDouble_eq _).trans (h.singleFromDouble_eq _).symm
  have hflags : s.raisedFlags fs = [] := h.narrowingFlags_eq_nil
  have hflags' : (s.withCfg ((s.cfg.setSfd c).setPolicy p)).raisedFlags fs = [] := hflags
  apply State.ext
  case gpr => exact State.commitStore_gpr_congr (s := s) (by rfl) (by rfl) fs sum u
  case fpscr => simp [hflags, hflags']
  case mem => simp [hword]
  case reservations => simp [keepReservation_congr (c := s.cfg) (c' := (s.cfg.setSfd c).setPolicy p) rfl]
  all_goals simp

/-- Settles O36, with the fields of R92 for each class of the common core. -/
theorem commonCore : Obligations.CommonCore := by
  refine ⟨fun c x rn ni k => ⟨fun h => ?_, fun h => ?_, fun ⟨h1, h2, h3⟩ => ?_, fun h => ?_⟩,
    fun f p x rn ni k h => ?_, fun i s c p h => ?_⟩
  · have hcore := InCommonCore.zero h
    exact ⟨(hcore.singleFromDouble_eq c).trans (selectedBits_of_zero_fields h), hcore.narrowingFlags_eq_nil⟩
  · have hcore := InCommonCore.inf h
    exact ⟨(hcore.singleFromDouble_eq c).trans (selectedBits_of_inf_fields h), hcore.narrowingFlags_eq_nil⟩
  · have hcore := InCommonCore.normal h1 h2 h3
    exact ⟨(hcore.singleFromDouble_eq c).trans (selectedBits_of_normal_fields h1 h2), hcore.singleFromDouble_eq c,
      hcore.narrowingFlags_eq_nil⟩
  · have hcore := InCommonCore.quietNan h
    exact ⟨(hcore.singleFromDouble_eq c).trans (selectedBits_of_quietNan_fields h), hcore.narrowingFlags_eq_nil⟩
  · rw [(inCommonCore_of_isSome h).narrowingFlags_eq_nil, Fpscr.update_nil]
  · have hagree : s.AgreeOnChecks (s.withCfg ((s.cfg.setSfd c).setPolicy p)) :=
      ⟨rfl, rfl, rfl, rfl, rfl, rfl, rfl, rfl⟩
    exact hagree.exec_eq _ (s.commitStore_setSfd_setPolicy c p _ _ (inCommonCore_of_isSome h))

end Sys2Proof.Machine
end

section
/-! `SFD_rn` and its flags against the narrowing of R93 to R98 over exact rationals. -/

namespace Sys2Proof.Narrowing

open Sys2Proof.Machine

section
variable {x : DWord} {rn : BitVec 2} {ni : Bool} {k : Nat}

/-- A flushed magnitude is far below the overflow threshold. -/
theorem le_maxF_of_flushed (hf : Flushed x rn ni) : rounded x rn ≤ maxF := by
  obtain ⟨-, -, hlt⟩ := hf
  have hle : minN < maxF := by
    rw [minN_eq, maxF_eq, singleMagnitude_strictMono.lt_iff_lt]
    decide
  exact (hlt.trans hle).le

variable (h : Finite x)
include h

theorem not_infMag_le_of_le_maxF (ho : rounded x rn ≤ maxF) : ¬ infMag ≤ roundedMag x rn :=
  (maxF_lt_rounded_iff h rn).not.1 ho.not_gt

/-! The flags of each row of R98. -/

theorem mem_narrowingFlags_of_overflow (ho : maxF < rounded x rn) (b : NarrowFlag) :
    b ∈ narrowingFlags x rn ni k ↔ b = .ox ∨ b = .xx := by
  rw [mem_narrowingFlags, narrowingFlag_of_finite h, if_pos ((maxF_lt_rounded_iff h rn).1 ho)]
  simp

theorem flag_of_flushed (hf : Flushed x rn ni) {b : NarrowFlag} (hb : b ∈ narrowingFlags x rn ni k) :
    b = .ux ∨ b = .xx := by
  have ho := not_infMag_le_of_le_maxF h (le_maxF_of_flushed hf)
  rw [mem_narrowingFlags, narrowingFlag_of_finite h, if_neg ho, if_pos ((flushed_iff h rn ni).1 hf)] at hb
  simpa using (Bool.and_eq_true_iff.1 hb).1

section
variable (ho : rounded x rn ≤ maxF) (hf : ¬ Flushed x rn ni)
include ho hf

/-- Neither overflowing nor flushed, the flags are those of R98's last three rows. -/
theorem narrowingFlag_of_inRange (b : NarrowFlag) :
    narrowingFlag x rn ni k b =
      if rounded x rn = magnitude x then false
      else if minN ≤ magnitude x then b == .xx
      else b == .xx || b == .ux := by
  rw [narrowingFlag_of_finite h, if_neg (not_infMag_le_of_le_maxF h ho),
    if_neg ((flushed_iff h rn ni).not.1 hf)]
  simp only [rounded_eq_magnitude_iff h, minN_le_magnitude_iff]

theorem narrowingFlags_of_exact (he : rounded x rn = magnitude x) : narrowingFlags x rn ni k = [] := by
  refine List.eq_nil_iff_forall_not_mem.2 fun b => ?_
  rw [mem_narrowingFlags, narrowingFlag_of_inRange h ho hf, if_pos he]
  exact Bool.false_ne_true

theorem mem_narrowingFlags_of_inexact (he : rounded x rn ≠ magnitude x) (hn : minN ≤ magnitude x) (b : NarrowFlag) :
    b ∈ narrowingFlags x rn ni k ↔ b = .xx := by
  rw [mem_narrowingFlags, narrowingFlag_of_inRange h ho hf, if_neg he, if_pos hn, beq_iff_eq]

theorem mem_narrowingFlags_of_inexact_tiny (he : rounded x rn ≠ magnitude x) (hn : magnitude x < minN)
    (b : NarrowFlag) : b ∈ narrowingFlags x rn ni k ↔ b = .xx ∨ b = .ux := by
  rw [mem_narrowingFlags, narrowingFlag_of_inRange h ho hf, if_neg he, if_neg hn.not_ge]
  simp

/-- `UX` is raised exactly for an inexact result of a magnitude below `MINN`. -/
theorem ux_mem_narrowingFlags_iff :
    NarrowFlag.ux ∈ narrowingFlags x rn ni k ↔ magnitude x < minN ∧ rounded x rn ≠ magnitude x := by
  rw [mem_narrowingFlags, narrowingFlag_of_inRange h ho hf]
  split_ifs with he hn
  · simp [he]
  · simp [hn]
  · simp [he, not_le.1 hn]

end

/-- `OX` is raised exactly on overflow. -/
theorem ox_mem_narrowingFlags_iff : NarrowFlag.ox ∈ narrowingFlags x rn ni k ↔ maxF < rounded x rn := by
  by_cases ho : maxF < rounded x rn
  · simp [mem_narrowingFlags_of_overflow h ho, ho]
  refine iff_of_false (fun hb => ?_) ho
  by_cases hf : Flushed x rn ni
  · exact absurd (flag_of_flushed h hf hb) (by decide)
  rw [mem_narrowingFlags, narrowingFlag_of_inRange h (not_lt.1 ho) hf] at hb
  split_ifs at hb <;> exact absurd hb (by decide)

/-- No rounded magnitude lies strictly between `MAXF` and `2^128`. -/
theorem maxF_lt_rounded_iff_two_pow (rn : BitVec 2) : maxF < rounded x rn ↔ (2 : ℚ) ^ 128 ≤ rounded x rn := by
  rw [maxF_lt_rounded_iff h, two_pow_128_eq, ← singleMagnitude_roundedMag h, singleMagnitude_strictMono.le_iff_le]

/-! The words. -/

theorem sfdRn_of_overflow (ho : maxF < rounded x rn) : sfdRn x rn ni = overflowWord (dSign x) rn := by
  rw [sfdRn_of_finite h, if_pos ((maxF_lt_rounded_iff h rn).1 ho)]

theorem sfdRn_of_flushed (hf : Flushed x rn ni) : sfdRn x rn ni = single (dSign x) 0 := by
  rw [sfdRn_of_finite h, if_neg (not_infMag_le_of_le_maxF h (le_maxF_of_flushed hf)),
    if_pos ((flushed_iff h rn ni).1 hf)]

theorem sfdRn_of_inRange (ho : rounded x rn ≤ maxF) (hf : ¬ Flushed x rn ni) :
    sfdRn x rn ni = single (dSign x) (roundedMag x rn) := by
  rw [sfdRn_of_finite h, if_neg (not_infMag_le_of_le_maxF h ho), if_neg ((flushed_iff h rn ni).not.1 hf)]

/-- Where nothing is dropped the rounding mode is not read (R93). -/
theorem roundedMag_of_remainder_eq_zero (hr : remainder (magnitude x) = 0) (rn : BitVec 2) :
    roundedMag x rn = (dExp x - 897) * 2 ^ 23 + keptBits x := by
  have hrem : remainderBits x = 0 := by
    rw [remainder_eq h, div_eq_zero_iff] at hr
    simpa using hr
  exact roundedMag_of_increment_eq_zero (increment_of_exact hrem rn)

end

/-- The overflow word of R96 in the fields of a single. -/
theorem overflowWord_eq (s : BitVec 1) (rn : BitVec 2) :
    overflowWord s rn =
      if rn = 0 ∨ (rn = 2 ∧ s = 0) ∨ (rn = 3 ∧ s = 1) then s ++ 0xFF#8 ++ 0#23 else s ++ 0x7F7FFFFF#31 := by
  rw [append_eq_single_infMag]
  rfl

/-- Settles O39, a row of R98 at a time. -/
theorem narrowingFlagsTable : Obligations.NarrowingFlagsTable := by
  intro x rn ni k b
  refine ⟨fun h => ?_, fun h => ?_, fun h => ⟨fun ho => ?_, fun hf => ?_, fun ho hf => ⟨?_, ?_, ?_⟩⟩⟩
  · simp [mem_narrowingFlags_of_nan (dIsNan_of_signalling h), h]
  · obtain hq | hi | hz := h
    · simp [narrowingFlags_of_quietNan hq]
    · simp [narrowingFlags_of_inf hi]
    · simp [narrowingFlags_of_zero hz]
  · exact mem_narrowingFlags_of_overflow h ho b
  · exact flag_of_flushed h hf
  · intro he
    simp [narrowingFlags_of_exact h ho hf he]
  · exact fun he hn => mem_narrowingFlags_of_inexact h ho hf he hn b
  · exact fun he hn => mem_narrowingFlags_of_inexact_tiny h ho hf he hn b

/-- Settles O40: the bridge lemmas carry the machine's test, and with it `OX`, to the rationals. -/
theorem overflowExactlyFromTwoTo128 : Obligations.OverflowExactlyFromTwoTo128 := by
  intro x rn h
  have hbound := maxF_lt_rounded_iff_two_pow h rn
  exact ⟨(maxF_lt_rounded_iff h rn).symm.trans hbound, hbound,
    fun ni k => (ox_mem_narrowingFlags_iff h).trans hbound⟩

/-- Settles O37, class by class; a finite double overflows, is flushed, or keeps the word of its rounded magnitude. -/
theorem sfdRnIsExactNarrowing : Obligations.SfdRnIsExactNarrowing := by
  intro x rn ni k
  refine ⟨fun h => ⟨sfdRn_of_nan h, mem_narrowingFlags_of_nan h⟩, fun h => ?_, sfdRn_of_zero, fun h => ?_⟩
  · rw [sfdRn_of_inf h, append_eq_single_infMag]
  refine ⟨maxF_lt_rounded_iff_two_pow h rn, fun ho => ⟨?_, mem_narrowingFlags_of_overflow h ho⟩,
    fun _ hf => ⟨sfdRn_of_flushed h hf, fun _ => flag_of_flushed h hf⟩, fun ho hf => ?_⟩
  · rw [sfdRn_of_overflow h ho, overflowWord_eq]
  · have hlt : roundedMag x rn < infMag := Nat.not_le.1 (not_infMag_le_of_le_maxF h ho)
    exact ⟨⟨roundedMag x rn, hlt, singleMagnitude_roundedMag h rn, sfdRn_of_inRange h ho hf⟩,
      ux_mem_narrowingFlags_iff h ho hf, narrowingFlags_of_exact h ho hf⟩

/-- Settles O38: the rounding mode is read for the increment and the overflow word alone, `NI` for the flush alone. -/
theorem sfdRnDependsOnModesOnlyWhereItMust : Obligations.SfdRnDependsOnModesOnlyWhereItMust := by
  refine fun x rn rn' ni ni' h => ⟨fun ho hr => ?_, fun hn => ?_⟩
  · have hmag : roundedMag x rn' = roundedMag x rn := by
      rw [roundedMag_of_remainder_eq_zero h hr, roundedMag_of_remainder_eq_zero h hr]
    have ho' := not_infMag_le_of_le_maxF h ho
    rw [sfdRn_of_finite h, sfdRn_of_finite h, hmag, if_neg ho', if_neg ho']
  · have hflush : ∀ n : Bool, flushes n (roundedMag x rn) = false := fun n =>
      Bool.eq_false_iff.2 fun hf => hn ((flushed_iff h rn n).2 hf).2
    exact sfdRn_congr_ni ((hflush ni').trans (hflush ni).symm)

end Sys2Proof.Narrowing
end

section
/-! The other named conversions: `SFD_rne` (R100) and `SFD_arch` (R101) against `SFD_rn`. -/

namespace Sys2Proof.Machine

/-- Settles O41: `SFD_rne` never flushes, so it agrees where `SFD_rn` does not. -/
theorem sfdRneIgnoresFpscr : Obligations.SfdRneIgnoresFpscr := by
  refine fun x rn ni k => ⟨rfl, fun hf => ?_⟩
  exact sfdRn_congr_ni ((flushes_false _).trans hf.symm)

section
variable {x : DWord} {k : Nat}

theorem dIsZero_iff_low_bits : dIsZero x = true ↔ x.extractLsb' 0 63 = 0 := by
  have hslice : (x.extractLsb' 0 63).toNat = dExp x * 2 ^ 52 + dFrac x := by
    rw [BitVec.extractLsb'_toNat, Nat.shiftRight_zero, dExp_eq, dFrac_eq]
    omega
  rw [dIsZero_iff, ← BitVec.toNat_inj, hslice]
  simp

/-- R101: the significand of a normal double shifted right to the exponent of the subnormal singles. -/
def shiftedSignificand (x : DWord) : Nat := (2 ^ 52 + dFrac x) / 2 ^ (897 - dExp x)

section
variable (h1 : 874 ≤ dExp x) (h2 : dExp x ≤ 896)
include h1 h2

omit h1 in
/-- Shifted by at least one place, the significand has lost its hidden bit's place. -/
theorem shiftedSignificand_lt : shiftedSignificand x < 2 ^ 52 := by
  have hfrac := Narrowing.dFrac_lt x
  have hpow : 2 ^ 1 ≤ 2 ^ (897 - dExp x) := Nat.pow_le_pow_right (by omega) (by omega)
  rw [shiftedSignificand, Nat.div_lt_iff_lt_mul (by positivity)]
  omega

theorem sfdArch_of_denormal :
    sfdArch x k = dSign x ++ 0#8 ++ BitVec.ofNat 23 (shiftedSignificand x / 2 ^ 29) := by
  have hsel : ¬ (896 < dExp x ∨ dIsZero x = true) := by
    rw [dIsZero_iff]
    omega
  rw [sfdArch, if_neg hsel, if_pos h1, shiftedSignificand]

omit h1 in
/-- Truncated to 52 bits and sliced, or divided: the same 23 bits of fraction. -/
theorem extract_shiftRight_significand :
    (BitVec.ofNat 52 ((2 ^ 52 + dFrac x) >>> (897 - dExp x))).extractLsb' 29 23 =
      BitVec.ofNat 23 (shiftedSignificand x / 2 ^ 29) := by
  apply BitVec.eq_of_toNat_eq
  rw [Nat.shiftRight_eq_div_pow, ← shiftedSignificand, BitVec.extractLsb'_toNat, BitVec.toNat_ofNat,
    BitVec.toNat_ofNat, Nat.shiftRight_eq_div_pow, Nat.mod_eq_of_lt (shiftedSignificand_lt h2)]

/-- Rounding toward zero denormalises by the same truncation. -/
theorem roundedMag_towardZero_of_denormal : roundedMag x 1 = shiftedSignificand x / 2 ^ 29 := by
  have hsig : significand x = 2 ^ 52 + dFrac x := if_neg (by omega)
  have hdropped : droppedBits x = (897 - dExp x) + 29 := by
    rw [droppedBits, if_neg (by omega), if_pos (by omega), Nat.add_comm]
  rw [roundedMag_of_increment_eq_zero (increment_towardZero x), keptBits, hsig, hdropped, Nat.pow_add,
    ← Nat.div_div_eq_div_mul, shiftedSignificand]
  omega

theorem sfdRn_towardZero_of_denormal : sfdRn x 1 false = sfdArch x k := by
  have hlt := shiftedSignificand_lt h2
  have hmag := roundedMag_towardZero_of_denormal h1 h2
  have hinRange : ¬ infMag ≤ roundedMag x 1 := by
    rw [hmag, infMag]
    omega
  rw [sfdRn_of_finite (finite_of_dExp (by omega) (by omega)), if_neg hinRange, flushes_false,
    if_neg Bool.false_ne_true, hmag, sfdArch_of_denormal h1 h2, append_eq_single_subnormal, BitVec.toNat_ofNat,
    Nat.mod_eq_of_lt (by omega)]

end

/-- Where `SFD_arch` is defined, the double is a zero, is denormalised or has its bits selected. -/
theorem sfdArch_eq_sfdRn_towardZero (h : dExp x ≤ 1150) (hdef : archUndefined x = false) :
    sfdArch x k = sfdRn x 1 false := by
  by_cases hzero : dIsZero x = true
  · exact (InCommonCore.zero hzero).sfdArch_eq.trans (InCommonCore.zero hzero).sfdRn_eq.symm
  have hlow : 874 ≤ dExp x := by
    by_contra hc
    simp [archUndefined, hzero] at hdef
    omega
  by_cases hnormal : 897 ≤ dExp x
  · rw [sfdArch_of_selects (.inl hnormal), sfdRn_of_normal hnormal (increment_towardZero x) h]
  · exact (sfdRn_towardZero_of_denormal hlow (by omega)).symm

end

/-- Settles O42, from the equation of each case of `SFD_arch`. -/
theorem sfdArchSelectsBits : Obligations.SfdArchSelectsBits := by
  refine fun x rn ni k => ⟨fun _ _ => rfl, fun h => ?_, fun h1 h2 => ?_, sfdArch_eq_sfdRn_towardZero⟩
  · exact sfdArch_of_selects (h.imp_right dIsZero_iff_low_bits.2)
  · rw [extract_shiftRight_significand h2]
    exact sfdArch_of_denormal h1 h2

end Sys2Proof.Machine
end

section
/-! The faults of an instruction (R110 to R112), and the order in which the conditions are reported (R114). -/

namespace Sys2Proof.Machine

/-- If an instruction faults, then for one of the three reasons of the common step, at its own pc and address. -/
theorem exec_fault_cases {i : Instr} {s : State} {f : Fault} (h : exec i s = .fault f) :
    (f = .floatingPointUnavailable s.pc ∧ s.msrFp = false) ∨
    (f = .stuckAccess (s.addrOfInstr i) ∧ s.msrFp = true ∧ s.admits (s.addrOfInstr i) = false) ∨
    (f = .alignment s.pc (s.addrOfInstr i) ∧ s.msrFp = true ∧ s.admits (s.addrOfInstr i) = true ∧
      s.alignmentFaults (s.addrOfInstr i) = true) := by
  cases hwf : i.wf with
  | false => exact absurd ((exec_of_not_wf hwf s).symm.trans h) (by simp)
  | true => exact storeSingle_fault_cases ((exec_eq_storeSingle hwf s).symm.trans h)

/-- R111: FloatingPointUnavailable is raised for no reason but `MSR.FP = 0`. -/
theorem exec_fault_floatingPointUnavailable {i : Instr} {s : State} {p : Addr}
    (h : exec i s = .fault (.floatingPointUnavailable p)) : p = s.pc ∧ s.msrFp = false := by
  obtain ⟨hf, hfp⟩ | ⟨hf, -⟩ | ⟨hf, -⟩ := exec_fault_cases h
  · exact ⟨Fault.floatingPointUnavailable.inj hf, hfp⟩
  · exact absurd hf (by simp)
  · exact absurd hf (by simp)

/-- R112: Alignment carries the pc and the address of the instruction. -/
theorem exec_fault_alignment_carries {i : Instr} {s : State} {p a : Addr}
    (h : exec i s = .fault (.alignment p a)) : p = s.pc ∧ a = s.addrOfInstr i := by
  obtain ⟨hf, -⟩ | ⟨hf, -⟩ | ⟨hf, -⟩ := exec_fault_cases h
  · exact absurd hf (by simp)
  · exact absurd hf (by simp)
  · exact Fault.alignment.inj hf

/-- Settles O23: by the check of `MSR.FP` and by the inversion of a fault. -/
theorem floatingPointUnavailableRule : Obligations.FloatingPointUnavailableRule :=
  ⟨fun _ _ => exec_of_fpDisabled, fun _ _ _ => exec_fault_floatingPointUnavailable⟩

section
variable {i : Instr} {s : State} (hwf : i.wf = true) (hpc : s.pc.toNat + 4 < 2 ^ 32) (hfp : s.msrFp = true)
include hwf hpc hfp

/-- R36, R37: with `MSR.FP = 1` an access that is not admitted is stuck (log entry 10). -/
theorem exec_of_not_admits (hadmits : s.admits (s.addrOfInstr i) = false) :
    exec i s = .fault (.stuckAccess (s.addrOfInstr i)) :=
  (exec_eq_of_fpEnabled hwf hpc hfp).trans (if_pos hadmits)

/-- R43: an admitted store that hits the text is refused, aligned or not. -/
theorem exec_of_hitsText (hadmits : s.admits (s.addrOfInstr i) = true)
    (htext : s.hitsText (s.addrOfInstr i) = true) : exec i s = .refused .storeToProgramText := by
  rw [exec_eq_of_fpEnabled hwf hpc hfp, if_neg (by simp [hadmits]), if_pos htext]

/-- The last check, on a store that the others let pass: Alignment, or completion (R34, R114). -/
theorem exec_eq_of_storeAdmitted (hadm : s.StoreAdmitted (s.addrOfInstr i)) :
    exec i s =
      if s.alignmentFaults (s.addrOfInstr i) = true then .fault (.alignment s.pc (s.addrOfInstr i))
      else .next (s.commitStore i.source (s.sumOf i) i.updates) := by
  obtain ⟨hadmits, htext⟩ := hadm
  rw [exec_eq_of_fpEnabled hwf hpc hfp, if_neg (by simp [hadmits]), if_neg (by simp [htext])]

end

/-- Settles O24: the inversion of the fault one way; the other way the access meets all that `alignmentFaults` asks. -/
theorem alignmentRule : Obligations.AlignmentRule := by
  refine ⟨fun i s p a h => ?_, fun i s hwf hpc hfp hadm hmis hinh hset => ?_⟩
  · obtain ⟨hmis, hinh, hset⟩ := exec_fault_alignment h
    obtain ⟨rfl, rfl⟩ := exec_fault_alignment_carries h
    exact ⟨rfl, rfl, misaligned_iff.1 hmis, State.hitsInhibited_iff.1 hinh, hset⟩
  · have hal : s.alignmentFaults (s.addrOfInstr i) = true :=
      State.alignmentFaults_iff.2 ⟨hmis, State.hitsInhibited_iff.2 hinh, .inl hset⟩
    exact (exec_eq_of_storeAdmitted hwf hpc hfp hadm).trans (if_pos hal)

/-- Settles O29, a check at a time: the word, the form, the pc, `MSR.FP`, admission, the text, Alignment. -/
theorem outcomesInPriorityOrder : Obligations.OutcomesInPriorityOrder := by
  refine ⟨fun s w he hf => ⟨step_of_notInSpec he hf, step_of_invalidForm he hf⟩, fun i s => ⟨?_, fun hwf => ?_⟩⟩
  · exact fun hwf => exec_of_not_wf hwf s
  refine ⟨exec_of_pcOverflow hwf, fun hpc => ⟨exec_of_fpDisabled hwf hpc, fun hfp => ?_⟩⟩
  refine ⟨exec_of_not_admits hwf hpc hfp, fun hadmits => ⟨exec_of_hitsText hwf hpc hfp hadmits, fun htext => ?_⟩⟩
  have hexec := exec_eq_of_storeAdmitted hwf hpc hfp ⟨hadmits, htext⟩
  exact ⟨fun hal => hexec.trans (if_pos hal), fun hal => ⟨_, hexec.trans (if_neg (by simp [hal]))⟩⟩

/-- The launch state with its first eight bytes cache-inhibited, under `fault`. -/
def inhibitedAtZero : State :=
  State.reset.withCfg { configReset with inhibited := [⟨0, 8⟩], ciMisalign := .fault }

/-- Settles O30: no other exception, by the inversion of a fault; a store with the unit disabled and a misaligned store
to `inhibitedAtZero` raise the two. -/
theorem exactlyTwoExceptions : Obligations.ExactlyTwoExceptions := by
  refine ⟨fun i s f h => ?_, ⟨.stfs 0 0 0, { State.reset with msrFp := false }, ?_⟩,
    ⟨.stfs 0 0 1, inhibitedAtZero, ?_⟩⟩
  · obtain ⟨hf, -⟩ | ⟨hf, -⟩ | ⟨hf, -⟩ := exec_fault_cases h
    · exact .inl hf
    · exact .inr (.inr hf)
    · exact .inr (.inl hf)
  · exact exec_of_fpDisabled rfl (by decide) rfl
  · exact (exec_eq_of_storeAdmitted rfl (by decide) rfl (by decide)).trans (if_pos (by decide))

end Sys2Proof.Machine
end

section
/-! `MSR.FP`, the controls and the flags of FPSCR across one instruction and one step (R14, R102, R119). -/

namespace Sys2Proof.Machine

/-- No policy clears a flag (R102). -/
theorem Fpscr.flag_update_of_flag {f : Fpscr} {b : NarrowFlag} (h : f.flag b = true) (p : FpscrPolicy)
    (flags : List NarrowFlag) (draw : Nat) : (f.update p flags draw).flag b = true := by
  rw [Fpscr.flag_update, h, Bool.true_or]

/-- A completed instruction keeps `MSR.FP` and the controls, and every flag that was set. -/
theorem exec_next_keeps_controls_flags {i : Instr} {s t : State} (h : exec i s = .next t) :
    t.msrFp = s.msrFp ∧ Fpscr.SameControls t.fpscr s.fpscr ∧
      ∀ b, s.fpscr.flag b = true → t.fpscr.flag b = true := by
  obtain ⟨-, -, rfl⟩ := exec_next h
  rw [State.commitStore_fpscr]
  exact ⟨State.commitStore_msrFp .., Fpscr.sameControls_update .., fun b hb => Fpscr.flag_update_of_flag hb ..⟩

/-- Settles O33: the step executed one instruction; RN, NI and the enables are among the controls. -/
theorem controlsKeptFlagsSticky : Obligations.ControlsKeptFlagsSticky := by
  intro s t h
  obtain ⟨_, _, -, -, -, hexec⟩ := step_next h
  obtain ⟨hmsr, hcontrols, hflags⟩ := exec_next_keeps_controls_flags hexec
  obtain ⟨-, -, -, -, -, -, -, -, -, -, hve, hoe, hue, hze, hxe, hni, hrn⟩ := hcontrols
  exact ⟨hmsr, hrn, hni, hve, hoe, hue, hze, hxe, hflags⟩

end Sys2Proof.Machine
end

section
/-! The step, branch by branch (R136, R137): the equation of each branch, and the inversion of a refusal. -/

namespace Sys2Proof.Machine

theorem State.ended_iff {s : State} : s.ended = true ↔ s.pc.toNat = s.text.limit := by
  rw [State.ended, beq_iff_eq]

theorem step_of_ended {s : State} (he : s.ended = true) : step s = .refused .runEnded := if_pos he

theorem step_of_fetch_none {s : State} (he : s.ended = false) (hf : s.fetch = none) :
    step s = .refused .pcOutsideText := by
  simp [step, he, hf]

/-- Settles O8: the other branches of the step are those of an ended run, of no word and of another decoding. -/
theorem stepRunsDecodedInstruction : Obligations.StepRunsDecodedInstruction := by
  intro s w i he hf hd
  simp [step, he, hf, hd]

/-- Settles O10: `base + 4n` is the limit of the text, where the run has ended. -/
theorem runEndsAfterLastWord : Obligations.RunEndsAfterLastWord :=
  fun _ hpc => step_of_ended (State.ended_iff.2 hpc)

/-- An instruction is refused for its form, at the top of the pc's range or for a store into the text. -/
theorem exec_refused_cases {i : Instr} {s : State} {r : Refusal} (h : exec i s = .refused r) :
    (r = .invalidForm ∧ i.wf = false) ∨ (r = .pcOverflow ∧ 2 ^ 32 ≤ s.pc.toNat + 4) ∨
    (r = .storeToProgramText ∧ s.hitsText (s.addrOfInstr i) = true) := by
  cases hwf : i.wf with
  | false =>
    have hform := h.symm.trans (exec_of_not_wf hwf s)
    exact .inl ⟨Host.Outcome.refused.inj hform, rfl⟩
  | true => exact .inr (storeSingle_refused_cases ((exec_eq_storeSingle hwf s).symm.trans h))

/-- A refused step is at the end of the run, or fetched no word, or the word has no meaning, or its instruction is
refused. -/
theorem step_refused_cases {s : State} {r : Refusal} (h : step s = .refused r) :
    (r = .runEnded ∧ s.ended = true) ∨
    (r = .pcOutsideText ∧ s.ended = false ∧ s.fetch = none) ∨
    ∃ w, s.ended = false ∧ s.fetch = some w ∧
      ((r = .invalidForm ∧ decodeWord w = .invalidForm) ∨ (r = .notInSpec ∧ decodeWord w = .notInSpec) ∨
        ∃ i, decodeWord w = .instr i ∧ exec i s = .refused r) := by
  have refusal {q : Refusal} (hq : step s = .refused q) : r = q := Host.Outcome.refused.inj (h.symm.trans hq)
  cases he : s.ended with
  | true => exact .inl ⟨refusal (step_of_ended he), rfl⟩
  | false =>
    cases hf : s.fetch with
    | none => exact .inr (.inl ⟨refusal (step_of_fetch_none he hf), rfl, rfl⟩)
    | some w =>
      refine .inr (.inr ⟨w, rfl, rfl, ?_⟩)
      cases hd : decodeWord w with
      | instr i => exact .inr (.inr ⟨i, rfl, (stepRunsDecodedInstruction s w i he hf hd).symm.trans h⟩)
      | invalidForm => exact .inl ⟨refusal (step_of_invalidForm he hf hd), rfl⟩
      | notInSpec => exact .inr (.inl ⟨refusal (step_of_notInSpec he hf hd), rfl⟩)

end Sys2Proof.Machine
end

section
/-! Where the pc of a run stands (R131, R137): at the end of the text, or at one of its words. -/

namespace Sys2Proof.Machine

/-- Settles O46: at launch memory and text are empty and the pc is at the base of the text. -/
theorem invariantAtReset : Obligations.InvariantAtReset := by
  unfold Obligations.InvariantAtReset
  decide

section
variable {s : State} (hinv : s.Inv)
include hinv

/-- Before the end of the run the pc is at some word of the text: it and the base are multiples of 4. -/
theorem State.Inv.exists_word_of_not_ended (he : s.ended = false) :
    ∃ k < s.text.len, s.pc.toNat = s.text.base.toNat + 4 * k := by
  obtain ⟨-, ⟨hbase, -⟩, halign, hlow, hhigh⟩ := hinv
  have hne : s.pc.toNat ≠ s.text.limit := fun hend => by simp [State.ended_iff.2 hend] at he
  unfold Text.limit at hhigh hne
  exact ⟨(s.pc.toNat - s.text.base.toNat) / 4, by omega, by omega⟩

/-- The fetch gives a word for every pc of a run but the last. -/
theorem State.Inv.fetch_of_not_ended (he : s.ended = false) : s.fetch = some (s.mem.readWord s.pc.toNat) := by
  obtain ⟨k, hk, hpc⟩ := hinv.exists_word_of_not_ended he
  obtain ⟨-, ⟨hbase, -⟩, -⟩ := hinv
  exact fetchIsBigEndianWord s k hbase hk hpc

/-- R131 `TextInRange`: from a word of the text, `pc + 4` stays below `2^32`. -/
theorem State.Inv.pc_add_four_lt (hin : s.text.holds s.pc.toNat = true) : s.pc.toNat + 4 < 2 ^ 32 := by
  obtain ⟨-, -, hnext⟩ := hinv.pc_add_four hin
  obtain ⟨-, ⟨-, hlimit⟩, -⟩ := hinv
  omega

/-- No step of a run is refused because of its pc: before the end the fetch gives a word, and an instruction that was
fetched is below the top. -/
theorem State.Inv.refused_ne_of_pc {r : Refusal} (h : step s = .refused r) :
    r ≠ .pcOutsideText ∧ r ≠ .pcOverflow := by
  obtain ⟨rfl, -⟩ | ⟨-, he, hf⟩ | ⟨w, -, hf, ⟨rfl, -⟩ | ⟨rfl, -⟩ | ⟨i, -, hexec⟩⟩ := step_refused_cases h
  · simp
  · simp [hinv.fetch_of_not_ended he] at hf
  · simp
  · simp
  · obtain ⟨hin, -⟩ := State.fetch_some hf
    have hlt := hinv.pc_add_four_lt hin
    obtain ⟨rfl, -⟩ | ⟨-, hle⟩ | ⟨rfl, -⟩ := exec_refused_cases hexec
    · simp
    · omega
    · simp

end

/-- Settles O47: whatever refuses a step of a run, it is not the pc. -/
theorem pcStaysInText : Obligations.PcStaysInText := by
  intro s hinv
  exact ⟨fun h => (hinv.refused_ne_of_pc h).1 rfl, fun h => (hinv.refused_ne_of_pc h).2 rfl⟩

end Sys2Proof.Machine
end

section
/-! A run under the launch premises (R131, R137): a step keeps them, and stops only for the store's address. -/

namespace Sys2Proof.Machine

/-- Two memories with the same four bytes hold the same word (R33). -/
theorem Memory.readWord_congr {m m' : Memory} {a : Nat} (h : ∀ k < 4, m'.read (a + k) = m.read (a + k)) :
    m'.readWord a = m.readWord a := by
  have h0 : m'.read a = m.read a := h 0 (by decide)
  rw [Memory.readWord, h0, h 1 (by decide), h 2 (by decide), h 3 (by decide), Memory.readWord]

/-- A step keeps every word of the text (R43), hence what each decodes to. -/
theorem step_next_textWellFormed {s t : State} (hm : s.mem.wf = true) (htext : s.TextWellFormed)
    (h : step s = .next t) : t.TextWellFormed := by
  obtain ⟨hplace, hbytes⟩ := programTextNeverWritten s t hm h
  rw [State.TextWellFormed, hplace]
  intro k hk
  have hlen : k < s.text.len := List.mem_range.1 hk
  rw [Memory.readWord_congr fun j hj => hbytes _ (by omega) (by omega)]
  exact htext k hk

/-- R131: a step keeps the premises of a run. -/
theorem step_next_keeps_premises {s t : State} (hinv : s.Inv) (htext : s.TextWellFormed) (hfp : s.FpEnabled)
    (h : step s = .next t) : t.Inv ∧ t.TextWellFormed ∧ t.FpEnabled := by
  have ⟨hm, _⟩ := hinv
  obtain ⟨hmsr, -⟩ := controlsKeptFlagsSticky s t h
  exact ⟨stepKeepsInvariant s t hinv h, step_next_textWellFormed hm htext h, hmsr.trans hfp⟩

/-- In a well-formed text the word at the pc of a run is that of a well-formed instruction, and the step executes it. -/
theorem State.Inv.step_eq_exec {s : State} (hinv : s.Inv) (htext : s.TextWellFormed) (he : s.ended = false) :
    ∃ i : Instr, s.fetch = some (encode i) ∧ i.wf = true ∧ step s = exec i s := by
  obtain ⟨k, hk, hpc⟩ := hinv.exists_word_of_not_ended he
  have hf := hinv.fetch_of_not_ended he
  have hword := htext k (List.mem_range.2 hk)
  rw [← hpc] at hword
  cases hd : decodeWord (s.mem.readWord s.pc.toNat) with
  | instr i =>
    obtain ⟨hwf, hencode⟩ := encodeOfDecode _ _ hd
    exact ⟨i, hf.trans (congrArg some hencode.symm), hwf, stepRunsDecodedInstruction _ _ _ he hf hd⟩
  | invalidForm => simp [hd, Decoded.instr?] at hword
  | notInSpec => simp [hd, Decoded.instr?] at hword

/-- With `MSR.FP = 1` and below the top of the pc's range, only the store's address can keep a well-formed instruction
from completing. -/
theorem exec_cases_of_fpEnabled {i : Instr} {s : State} (hwf : i.wf = true) (hpc : s.pc.toNat + 4 < 2 ^ 32)
    (hfp : s.msrFp = true) :
    (∃ t, exec i s = .next t) ∨ exec i s = .fault (.stuckAccess (s.addrOfInstr i)) ∨
      exec i s = .refused .storeToProgramText ∨ exec i s = .fault (.alignment s.pc (s.addrOfInstr i)) := by
  cases hadmits : s.admits (s.addrOfInstr i) with
  | false => exact .inr (.inl (exec_of_not_admits hwf hpc hfp hadmits))
  | true =>
    cases htext : s.hitsText (s.addrOfInstr i) with
    | true => exact .inr (.inr (.inl (exec_of_hitsText hwf hpc hfp hadmits htext)))
    | false =>
      have hexec := exec_eq_of_storeAdmitted hwf hpc hfp ⟨hadmits, htext⟩
      cases hal : s.alignmentFaults (s.addrOfInstr i) with
      | true => exact .inr (.inr (.inr (hexec.trans (if_pos hal))))
      | false => exact .inl ⟨_, hexec.trans (if_neg (by simp [hal]))⟩

/-- Settles O49: the run has ended, or the step is an instruction of the text, with the unit enabled and below the top;
an admitted store that cannot raise Alignment is storable. -/
theorem premisedRunGoesOn : Obligations.PremisedRunGoesOn := by
  intro s hinv htext hfp
  cases he : s.ended with
  | true => exact .inl ⟨step_of_ended he, State.ended_iff.1 he⟩
  | false =>
    obtain ⟨i, hf, hwf, hstep⟩ := hinv.step_eq_exec htext he
    obtain ⟨hin, -⟩ := State.fetch_some hf
    have hpc := hinv.pc_add_four_lt hin
    have ⟨hm, _⟩ := hinv
    refine .inr ⟨i, hf, hwf, ?_, fun hadm hci => ?_⟩
    · refine (hstep ▸ exec_cases_of_fpEnabled hwf hpc hfp).imp_left ?_
      exact fun ⟨t, hnext⟩ => ⟨t, hnext, step_next_keeps_premises hinv htext hfp hnext⟩
    · obtain ⟨t, hnext, -⟩ := exec_of_storable hwf hm ⟨hpc, hfp, hadm, .inl hci⟩
      exact ⟨t, hstep.trans hnext⟩

end Sys2Proof.Machine
end
